-- ==== Sys2Proof/Word.lean ====
section
/-! DEFINITION. The word and the byte of the machine (spec/00_scope.md R5, R14): every sum on a word wraps
modulo 2^16, which is `BitVec`'s own addition. -/

namespace Sys2Proof

/-- A 16-bit word, "the machine's only data size" (spec/20_memory.md R48). -/
abbrev Word := BitVec 16

/-- A console byte (spec/10_state.md R31). -/
abbrev Byte := BitVec 8

end Sys2Proof
end

