-- ==== Sys2Proof/Config.lean ====
section
/-! DEFINITION. What the spec fixes once for the machine (`PC_START`) and the parameters it leaves OPEN.
An open parameter is an opaque constant: no proof can see its value, so a claim holds for every value (log 16). -/

namespace Sys2Proof

/-- The two orders of JSRR's link write and base read (spec/00_scope.md R12). -/
inductive LinkOrder where
  | linkFirst
  | targetFirst
deriving DecidableEq, Repr, Inhabited

/-- `PC_START` (spec/00_scope.md R6, decision D1). PRESUMED, log 2. -/
def Config.pcStart : Word := 0x3000#16

/-- `HALT_MSG`, OPEN (spec/00_scope.md R9). -/
opaque Config.haltMsg : List Byte

/-- `IN_PROMPT`, OPEN (spec/00_scope.md R10). -/
opaque Config.inPrompt : List Byte

/-- `TRAP_IN_SETS_FLAGS`, OPEN (spec/00_scope.md R11). -/
opaque Config.trapInSetsFlags : Bool

/-- `JSRR_LINK_ORDER`, OPEN (spec/00_scope.md R12). -/
opaque Config.jsrrLinkOrder : LinkOrder

/-- `STOP_EXIT_STATUS`, OPEN, a parameter of the host (spec/00_scope.md R13). -/
opaque Config.stopExitStatus : Nat

/-- `ABORT_EXIT_STATUS`, OPEN, a parameter of the host (spec/00_scope.md R13). -/
opaque Config.abortExitStatus : Nat

end Sys2Proof
end

