-- ==== Sys2Proof/Syntax.lean ====
section
/-! DEFINITION. The instructions: one constructor per row of spec/opcode_table.json, with the fields of
spec/30_encoding.md R62 and R63. Offsets and immediates are kept as the bits of their fields; a meaning
extends them (R64). RET and the six trap routines are rows of the table and so have constructors of their
own beside JMP and TRAP, whose words they are (R73; log 10). -/

namespace Sys2Proof

/-- The eight general registers (spec/10_state.md R20). -/
inductive Reg where
  | r0 | r1 | r2 | r3 | r4 | r5 | r6 | r7
deriving DecidableEq, Repr

/-- The sixteen entries of the opcode map (spec/30_encoding.md R67). -/
inductive Opcode where
  | br | add | ld | st | jsr | and | ldr | str | rti | not | ldi | sti | jmp | reserved | lea | trap
deriving DecidableEq, Repr

inductive Instr where
  /-- ADD (register), R80. -/
  | addReg (dr sr1 sr2 : Reg)
  /-- ADD (immediate), R81. -/
  | addImm (dr sr1 : Reg) (imm5 : BitVec 5)
  /-- AND (register), R82. -/
  | andReg (dr sr1 sr2 : Reg)
  /-- AND (immediate), R83. -/
  | andImm (dr sr1 : Reg) (imm5 : BitVec 5)
  /-- NOT, R84. -/
  | not (dr sr1 : Reg)
  /-- BR with its three condition bits, R90. -/
  | br (n z p : Bool) (off9 : BitVec 9)
  /-- JMP, R91; the word with BaseR = 7 is RET's row. -/
  | jmp (base : Reg)
  /-- RET, which is JMP R7, R91. -/
  | ret
  /-- JSR, R92. -/
  | jsr (off11 : BitVec 11)
  /-- JSRR, R93. -/
  | jsrr (base : Reg)
  /-- LD, R100. -/
  | ld (dr : Reg) (off9 : BitVec 9)
  /-- LDI, R101. -/
  | ldi (dr : Reg) (off9 : BitVec 9)
  /-- LDR, R102. -/
  | ldr (dr base : Reg) (off6 : BitVec 6)
  /-- LEA, R103. -/
  | lea (dr : Reg) (off9 : BitVec 9)
  /-- ST, R104. -/
  | st (sr : Reg) (off9 : BitVec 9)
  /-- STI, R105. -/
  | sti (sr : Reg) (off9 : BitVec 9)
  /-- STR, R106. -/
  | str (sr base : Reg) (off6 : BitVec 6)
  /-- TRAP, R110. Bits 11:8 are ignored by the dispatch and kept because a fault records the word (R131). -/
  | trap (ignored : BitVec 4) (vect : BitVec 8)
  /-- GETC, which is TRAP x20, R112. -/
  | getc
  /-- OUT, which is TRAP x21, R113. -/
  | out
  /-- PUTS, which is TRAP x22, R114. -/
  | puts
  /-- IN, which is TRAP x23, R115. -/
  | inp
  /-- PUTSP, which is TRAP x24, R116. -/
  | putsp
  /-- HALT, which is TRAP x25, R117. -/
  | halt
  /-- RTI, R120. Bits 11:0 are ignored and kept because the fault records the word (R131). -/
  | rti (ignored : BitVec 12)
  /-- The reserved opcode 1101, R121. Bits 11:0 as for RTI. -/
  | reserved (ignored : BitVec 12)
deriving DecidableEq, Repr

end Sys2Proof
end

