-- ==== Sys2Proof/Machine/State.lean ====
section
/-! DEFINITION. The state of the core: the union of the items of spec/10_state.md R37, and one field of the
model's own, `pending` (log 12). -/

namespace Sys2Proof.Machine

/-- The eight general registers, 16 bits each (spec/10_state.md R20). -/
structure RegFile where
  r0 : Word
  r1 : Word
  r2 : Word
  r3 : Word
  r4 : Word
  r5 : Word
  r6 : Word
  r7 : Word
deriving DecidableEq, Repr

/-- COND, exactly one of three values (spec/10_state.md R24, R27). -/
inductive Cond where
  | p
  | z
  | n
deriving DecidableEq, Repr

/-- The run state (spec/10_state.md R30). -/
inductive RunState where
  | running
  | halted
  | faulted
deriving DecidableEq, Repr

/-- The fatal conditions (spec/60_exceptions.md R130). -/
inductive FatalCode where
  | rti
  | reserved
  | badTrap
deriving DecidableEq, Repr

/-- The fault record: the code, and the address and the word of the instruction (spec/10_state.md R35). -/
structure FaultRecord where
  code : FatalCode
  addr : Word
  word : Word
deriving DecidableEq, Repr

/-- What is left of an instruction that waits in `ConsoleIn()` (spec/10_state.md R31, spec/60_exceptions.md R136).
The address a waiting access reads is KBDR_ADDR. -/
inductive Pending where
  /-- The fetch, before PC's increment, and the whole instruction after it. -/
  | fetch
  /-- The data read of LD, LDI or LDR for register `dr`. -/
  | load (dr : Reg)
  /-- The pointer read of LDI. -/
  | ldiPointer (dr : Reg)
  /-- The pointer read of STI. -/
  | stiPointer (sr : Reg)
  /-- GETC's console read. -/
  | getc
  /-- IN's console read, its prompt already written. -/
  | inByte
  /-- The string read of PUTS at address `a`. -/
  | puts (a : Word)
  /-- The string read of PUTSP at address `a`. -/
  | putsp (a : Word)
deriving DecidableEq, Repr

/-- Memory as a list of (address, word) cells: addresses strictly rising, no cell equal to what an unlisted
address reads as, 0x0000 (`Memory.wf` in Machine/Ops.lean; spec/10_state.md R29, R36). The word is the smallest
addressable unit of this machine (spec/20_memory.md R40; log 1). -/
abbrev Memory := List (Nat × Word)

structure State where
  /-- R0 to R7, R20. -/
  regs : RegFile
  /-- PC, R22. -/
  pc : Word
  /-- COND, R24. -/
  cond : Cond
  /-- M, R29. -/
  mem : Memory
  /-- run, R30. -/
  run : RunState
  /-- fault, R35. -/
  fault : Option FaultRecord
  /-- inq, R31; head first. -/
  inq : List Byte
  /-- outq, R32; oldest first. -/
  outq : List Byte
  /-- stop, R33. -/
  stop : Bool
  /-- The instruction in progress while the core waits; the model's own field, log 12. -/
  pending : Option Pending
deriving DecidableEq, Repr

/-- Nothing in this hardware stops a step with an outcome outside its state: the spec gives each of its three fatal
conditions a next state (FAULTED with a record, spec/60_exceptions.md R131) and says there is no other
exception (R132). So no constructor is needed and no step answers a fault (log 11). -/
inductive Fault
deriving DecidableEq, Repr

inductive Refusal where
  /-- Raised by an arm of `exec` that has no meaning yet; safe. No arm of this model raises it. -/
  | notModelled (mnemonic : String)
deriving DecidableEq, Repr

/-- The machine at the instant the run loop begins its first step with no image loaded, no byte delivered and
no stop requested (spec/10_state.md R36, spec/70_reset_and_hazards.md R150; log 2, log 7, log 20). -/
def State.reset : State where
  regs := ⟨0#16, 0#16, 0#16, 0#16, 0#16, 0#16, 0#16, 0#16⟩
  pc := Config.pcStart
  cond := .z
  mem := []
  run := .running
  fault := none
  inq := []
  outq := []
  stop := false
  pending := none

end Sys2Proof.Machine
end

