-- ==== Sys2Proof/Machine/Ops.lean ====
section
/-! DEFINITION. The named operations over registers, memory, devices and console, the end of a run, and the one
operation that takes a fatal condition. There is no return from one (spec/60_exceptions.md R131, R138). -/

namespace Sys2Proof.Machine

/-! Registers (spec/10_state.md R20, R22). -/

def RegFile.get (f : RegFile) : Reg → Word
  | .r0 => f.r0
  | .r1 => f.r1
  | .r2 => f.r2
  | .r3 => f.r3
  | .r4 => f.r4
  | .r5 => f.r5
  | .r6 => f.r6
  | .r7 => f.r7

def RegFile.set (f : RegFile) (r : Reg) (v : Word) : RegFile :=
  match r with
  | .r0 => { f with r0 := v }
  | .r1 => { f with r1 := v }
  | .r2 => { f with r2 := v }
  | .r3 => { f with r3 := v }
  | .r4 => { f with r4 := v }
  | .r5 => { f with r5 := v }
  | .r6 => { f with r6 := v }
  | .r7 => { f with r7 := v }

/-- `R[r]`. -/
def State.reg (s : State) (r : Reg) : Word := s.regs.get r

/-- `R[r] <- v`: it writes that register and no other state. -/
def State.setReg (s : State) (r : Reg) (v : Word) : State := { s with regs := s.regs.set r v }

/-- `PC <- v`. -/
def State.setPc (s : State) (v : Word) : State := { s with pc := v }

/-- `COND <- c`. -/
def State.setCond (s : State) (c : Cond) : State := { s with cond := c }

/-- The memory array replaced. -/
def State.setMem (s : State) (m : Memory) : State := { s with mem := m }

/-- What is left of the console input. -/
def State.setInq (s : State) (q : List Byte) : State := { s with inq := q }

/-- The instruction in progress. -/
def State.setPending (s : State) (p : Option Pending) : State := { s with pending := p }

/-! The memory array (spec/10_state.md R29), as its canonical list. -/

/-- `M[a]`; an unlisted address holds 0x0000 (spec/10_state.md R36, decision D7; log 7). -/
def Memory.read : Memory → Nat → Word
  | [], _ => 0#16
  | (b, v) :: m, a => if a = b then v else if a < b then 0#16 else Memory.read m a

/-- A cell put before a list whose addresses are all larger; a zero is not listed. -/
def Memory.cons (a : Nat) (v : Word) (m : Memory) : Memory :=
  if v = 0#16 then m else (a, v) :: m

/-- `M[a] <- v`, keeping the canonical form. -/
def Memory.write : Memory → Nat → Word → Memory
  | [], a, v => Memory.cons a v []
  | (b, u) :: m, a, v =>
    if a = b then Memory.cons a v m
    else if a < b then Memory.cons a v ((b, u) :: m)
    else (b, u) :: Memory.write m a v

/-- Every listed address is above `lo`, strictly rising and inside the address space, and no cell holds 0x0000. -/
def Memory.wfFrom : Option Nat → Memory → Bool
  | _, [] => true
  | lo, (a, v) :: m => lo.all (· < a) && a < 65536 && v ≠ 0#16 && Memory.wfFrom (some a) m

/-- The canonical form of a memory. -/
def Memory.wf (m : Memory) : Bool := Memory.wfFrom none m

/-- `M[a]` of a state at a word address, with no device effect. -/
def State.word (s : State) (a : Word) : Word := Memory.read s.mem a.toNat

/-- `M[a] <- v` of a state, with no device effect. -/
def State.setWord (s : State) (a v : Word) : State := s.setMem (Memory.write s.mem a.toNat v)

/-! The console (spec/10_state.md R31, R32). -/

/-- `ConsoleIn()`: the head of the queue and the state without it; none where the read waits. -/
def consoleIn (s : State) : Option (Byte × State) :=
  match s.inq with
  | [] => none
  | b :: q => some (b, s.setInq q)

/-- `ConsoleOut` of each byte in order. -/
def State.emit (s : State) (bs : List Byte) : State := { s with outq := s.outq ++ bs }

/-- The core waits in `ConsoleIn()` with `p` left to do (log 12). -/
def State.wait (s : State) (p : Pending) : State := s.setPending (some p)

/-- The core waits in `ConsoleIn()` and no byte has come: the arrival of a byte ends a wait (spec/60_exceptions.md R144). -/
def State.waiting (s : State) : Bool := s.pending.isSome && s.inq.isEmpty

/-- `zext_8` (spec/30_encoding.md R65). -/
def zext8 (b : Byte) : Word := b.setWidth 16

/-! The keyboard device and the access primitives (spec/20_memory.md R42 to R47). -/

/-- `KBSR_ADDR` (spec/00_scope.md R7, decision D2). PRESUMED, log 3. -/
def kbsrAddr : Word := 0xFE00#16

/-- `KBDR_ADDR` (spec/00_scope.md R7, decision D2). PRESUMED, log 3. -/
def kbdrAddr : Word := 0xFE02#16

/-- `KBSR_READY` (spec/00_scope.md R8, decision D3). DESIGN CHOICE of the spec, log 4. -/
def kbsrReady : Word := 0x8000#16

/-- `KBSR_IDLE` (spec/00_scope.md R8, decision D3). DESIGN CHOICE of the spec, log 4. -/
def kbsrIdle : Word := 0x0000#16

/-- `KbsrRead()`: a poll that removes nothing and never waits (R43). -/
def kbsrRead (s : State) : Word := if s.inq = [] then kbsrIdle else kbsrReady

/-- `MemRead(a, 1)` (R42 to R45): the word and the state after the read; none where it waits. -/
def memRead (a : Word) (s : State) : Option (Word × State) :=
  if a = kbsrAddr then some (kbsrRead s, s)
  else if a = kbdrAddr then
    match consoleIn s with
    | none => none
    | some (b, s') => some (zext8 b, s')
  else some (s.word a, s)

/-- `MemWrite(a, 1, v)` (R46, R47): no effect on a device address (decision D4; log 5). -/
def memWrite (a v : Word) (s : State) : State :=
  if a = kbsrAddr ∨ a = kbdrAddr then s else s.setWord a v

/-! The end of a run. -/

/-- `halt()` (spec/70_reset_and_hazards.md R156). -/
def State.halt (s : State) : State := { s with run := .halted }

/-- A stop request taken: the run ends in HALTED and an instruction in progress is abandoned
(spec/60_exceptions.md R135, R136, decision D19; log 15). -/
def State.stopNow (s : State) : State := (s.setPending none).halt

/-- `raise Fatal(code)` (spec/60_exceptions.md R131) for an instruction with word `w`: its address is PC - 1, PC
being the incremented value, which PC keeps. -/
def State.raiseFatal (s : State) (code : FatalCode) (w : Word) : State :=
  { s with fault := some ⟨code, s.pc - 1#16, w⟩, run := .faulted }

/-- The codes of spec/60_exceptions.md R130. -/
def FatalCode.number : FatalCode → Nat
  | .rti => 1
  | .reserved => 2
  | .badTrap => 3

end Sys2Proof.Machine
end

