-- ==== Sys2Proof/Machine/Operands.lean ====
section
/-! DEFINITION. Operand values and effective addresses (spec/30_encoding.md R64, R66). PC has already been
incremented when an operand is formed (R60). -/

namespace Sys2Proof.Machine

/-- `sext_n` as spec/30_encoding.md R64 writes it: all higher bits set to 1 where bit n-1 is set. -/
def sext {n : Nat} (f : BitVec n) : Word :=
  if f.getLsbD (n - 1) then f.setWidth 16 ||| (0xFFFF#16 <<< n) else f.setWidth 16

/-- A PC-relative address: PC + sext_n(offset), modulo 2^16 (R66). -/
def pcRel {n : Nat} (s : State) (off : BitVec n) : Word := s.pc + sext off

/-- A base-relative address: R[BaseR] + sext_6(offset6), modulo 2^16 (R66). -/
def baseRel (s : State) (base : Reg) (off6 : BitVec 6) : Word := s.reg base + sext off6

/-- The character in the low byte of a word (spec/20_memory.md R49). -/
def lowByte (w : Word) : Byte := w.extractLsb' 0 8

/-- The character in the high byte of a word. -/
def highByte (w : Word) : Byte := w.extractLsb' 8 8

end Sys2Proof.Machine
end

