-- ==== Sys2Proof/Machine/Flags.lean ====
section
/-! DEFINITION. The `flag_update_logic`: `setcc` (spec/10_state.md R26), the branch test (spec/41_control.md R90)
and the word encoding of COND (R27). -/

namespace Sys2Proof.Machine

/-- The flag of a word: exactly one value (R26). -/
def condOf (v : Word) : Cond :=
  if v = 0#16 then .z else if v.getLsbD 15 then .n else .p

/-- `setcc(v)` (R26). -/
def State.setcc (s : State) (v : Word) : State := s.setCond (condOf v)

/-- `R[DR] <- r` and then `setcc(r)`: how a result-producing instruction ends (R25). -/
def State.result (s : State) (dr : Reg) (r : Word) : State := (s.setReg dr r).setcc r

/-- BR's test (spec/41_control.md R90). -/
def branchTaken (n z p : Bool) (c : Cond) : Bool :=
  (n && c = .n) || (z && c = .z) || (p && c = .p)

/-- COND as a word (R27, decision D12; log 22); no instruction reads it. -/
def Cond.toWord : Cond → Word
  | .p => 0x0001#16
  | .z => 0x0002#16
  | .n => 0x0004#16

end Sys2Proof.Machine
end

