-- ==== Sys2Proof/Machine/Control.lean ====
section
/-! DEFINITION. Control transfer (spec/41_control.md R90 to R94). PC already holds the address of the next
instruction; no instruction here writes COND. -/

namespace Sys2Proof.Machine

/-- BR, R90. -/
def execBr (n z p : Bool) (off9 : BitVec 9) (s : State) : Host.Outcome State Fault Refusal :=
  .next (if branchTaken n z p s.cond then s.setPc (pcRel s off9) else s)

/-- `PC <- R[BaseR]`, R91. -/
def jumpTo (base : Reg) (s : State) : State := s.setPc (s.reg base)

/-- JMP, R91. -/
def execJmp (base : Reg) (s : State) : Host.Outcome State Fault Refusal :=
  .next (jumpTo base s)

/-- RET, which is JMP R7, R91. -/
def execRet (s : State) : Host.Outcome State Fault Refusal :=
  .next (jumpTo .r7 s)

/-- The link: `R[7] <- PC`, the address of the word after the call. -/
def State.link (s : State) : State := s.setReg .r7 s.pc

/-- JSR, R92. -/
def execJsr (off11 : BitVec 11) (s : State) : Host.Outcome State Fault Refusal :=
  .next (s.link.setPc (pcRel s off11))

/-- JSRR's two statements in either order (R93, R12); the orders differ only for BaseR = 7. -/
def callRegister (order : LinkOrder) (base : Reg) (s : State) : State :=
  match order with
  | .linkFirst => jumpTo base s.link
  | .targetFirst => s.link.setPc (s.reg base)

/-- JSRR, R93, in the order the open parameter says (log 16). -/
def execJsrr (base : Reg) (s : State) : Host.Outcome State Fault Refusal :=
  .next (callRegister Config.jsrrLinkOrder base s)

end Sys2Proof.Machine
end

