-- ==== Sys2Proof/Machine/LoadStore.lean ====
section
/-! DEFINITION. Loads, stores and LEA (spec/42_load_store.md R100 to R107). A read that reaches KBDR with no byte
delivered waits: the rest of the instruction is kept in `pending` (log 12). -/

namespace Sys2Proof.Machine

/-- The data read of a load, its register write and its flags. -/
def loadFrom (dr : Reg) (ea : Word) (s : State) : State :=
  match memRead ea s with
  | none => s.wait (.load dr)
  | some (r, s') => s'.result dr r

/-- The pointer read of LDI and then its data read, in this order (R101, decision D24). -/
def loadIndirect (dr : Reg) (pa : Word) (s : State) : State :=
  match memRead pa s with
  | none => s.wait (.ldiPointer dr)
  | some (ea, s') => loadFrom dr ea s'

/-- The pointer read of STI and then its write (R105). -/
def storeIndirect (sr : Reg) (pa : Word) (s : State) : State :=
  match memRead pa s with
  | none => s.wait (.stiPointer sr)
  | some (ea, s') => memWrite ea (s'.reg sr) s'

/-- LD, R100. -/
def execLd (dr : Reg) (off9 : BitVec 9) (s : State) : Host.Outcome State Fault Refusal :=
  .next (loadFrom dr (pcRel s off9) s)

/-- LDI, R101. -/
def execLdi (dr : Reg) (off9 : BitVec 9) (s : State) : Host.Outcome State Fault Refusal :=
  .next (loadIndirect dr (pcRel s off9) s)

/-- LDR, R102. -/
def execLdr (dr base : Reg) (off6 : BitVec 6) (s : State) : Host.Outcome State Fault Refusal :=
  .next (loadFrom dr (baseRel s base off6) s)

/-- LEA, R103: no memory access; it sets COND (spec/90_conflicts.md C8). -/
def execLea (dr : Reg) (off9 : BitVec 9) (s : State) : Host.Outcome State Fault Refusal :=
  .next (s.result dr (pcRel s off9))

/-- ST, R104. -/
def execSt (sr : Reg) (off9 : BitVec 9) (s : State) : Host.Outcome State Fault Refusal :=
  .next (memWrite (pcRel s off9) (s.reg sr) s)

/-- STI, R105. -/
def execSti (sr : Reg) (off9 : BitVec 9) (s : State) : Host.Outcome State Fault Refusal :=
  .next (storeIndirect sr (pcRel s off9) s)

/-- STR, R106. -/
def execStr (sr base : Reg) (off6 : BitVec 6) (s : State) : Host.Outcome State Fault Refusal :=
  .next (memWrite (baseRel s base off6) (s.reg sr) s)

end Sys2Proof.Machine
end

