-- ==== Sys2Proof/Machine/Operate.lean ====
section
/-! DEFINITION. The operate instructions of the `alu_16bit` (spec/40_operate.md R80 to R85). Operands are read
before the destination is written. -/

namespace Sys2Proof.Machine

/-- ADD (register), R80. -/
def execAddReg (dr sr1 sr2 : Reg) (s : State) : Host.Outcome State Fault Refusal :=
  .next (s.result dr (s.reg sr1 + s.reg sr2))

/-- ADD (immediate), R81. -/
def execAddImm (dr sr1 : Reg) (imm5 : BitVec 5) (s : State) : Host.Outcome State Fault Refusal :=
  .next (s.result dr (s.reg sr1 + sext imm5))

/-- AND (register), R82. -/
def execAndReg (dr sr1 sr2 : Reg) (s : State) : Host.Outcome State Fault Refusal :=
  .next (s.result dr (s.reg sr1 &&& s.reg sr2))

/-- AND (immediate), R83. -/
def execAndImm (dr sr1 : Reg) (imm5 : BitVec 5) (s : State) : Host.Outcome State Fault Refusal :=
  .next (s.result dr (s.reg sr1 &&& sext imm5))

/-- NOT, R84: all 16 bits complemented. -/
def execNot (dr sr1 : Reg) (s : State) : Host.Outcome State Fault Refusal :=
  .next (s.result dr (~~~ s.reg sr1))

end Sys2Proof.Machine
end

