-- ==== Sys2Proof/WellFormed.lean ====
section
/-! DEFINITION. Which instructions are well-formed. Every register number and every field value is legal
(spec/10_state.md R21, spec/30_encoding.md R69), so a term is ill-formed only where the opcode table gives its
word another row: JMP R7 is RET, TRAP x20 to x25 are the six routines (R73; log 10). -/

namespace Sys2Proof

/-- The six recognised trap vectors (spec/43_trap_and_undefined.md R110, R111). -/
def recognisedVector (v : BitVec 8) : Bool :=
  v = 0x20#8 || v = 0x21#8 || v = 0x22#8 || v = 0x23#8 || v = 0x24#8 || v = 0x25#8

/-- The term is the opcode table's own name of its word. -/
def Instr.wf : Instr → Bool
  | .addReg _ _ _ => true
  | .addImm _ _ _ => true
  | .andReg _ _ _ => true
  | .andImm _ _ _ => true
  | .not _ _ => true
  | .br _ _ _ _ => true
  | .jmp base => base ≠ .r7
  | .ret => true
  | .jsr _ => true
  | .jsrr _ => true
  | .ld _ _ => true
  | .ldi _ _ => true
  | .ldr _ _ _ => true
  | .lea _ _ => true
  | .st _ _ => true
  | .sti _ _ => true
  | .str _ _ _ => true
  | .trap _ vect => !recognisedVector vect
  | .getc => true
  | .out => true
  | .puts => true
  | .inp => true
  | .putsp => true
  | .halt => true
  | .rti _ => true
  | .reserved _ => true

end Sys2Proof
end

