-- ==== Sys2Proof/Decode.lean ====
section
/-! DEFINITION. The `instruction_decoder`: a total pure function from every 16-bit word (spec/30_encoding.md R71),
by the formats of R63 and the opcode map of R67 (numbers and positions: decisions D8, D9, D10; log 8), and the
encoder written from the same tables. No word is refused: RTI and the reserved opcode decode to instructions
of their own, whose execution is fatal (R69). Bits no field uses are not read (R68; log 9). -/

namespace Sys2Proof

/-- A 3-bit register field selects the register of that number (spec/10_state.md R21). -/
def Reg.ofBits (b : BitVec 3) : Reg :=
  match b.toNat with
  | 0 => .r0
  | 1 => .r1
  | 2 => .r2
  | 3 => .r3
  | 4 => .r4
  | 5 => .r5
  | 6 => .r6
  | _ => .r7

/-- The number of a register as its 3-bit field. -/
def Reg.bits : Reg → BitVec 3
  | .r0 => 0#3
  | .r1 => 1#3
  | .r2 => 2#3
  | .r3 => 3#3
  | .r4 => 4#3
  | .r5 => 5#3
  | .r6 => 6#3
  | .r7 => 7#3

/-- The opcode map, spec/30_encoding.md R67. -/
def Opcode.ofBits (b : BitVec 4) : Opcode :=
  match b.toNat with
  | 0 => .br
  | 1 => .add
  | 2 => .ld
  | 3 => .st
  | 4 => .jsr
  | 5 => .and
  | 6 => .ldr
  | 7 => .str
  | 8 => .rti
  | 9 => .not
  | 10 => .ldi
  | 11 => .sti
  | 12 => .jmp
  | 13 => .reserved
  | 14 => .lea
  | _ => .trap

/-- The opcode map read the other way. -/
def Opcode.bits : Opcode → BitVec 4
  | .br => 0x0#4
  | .add => 0x1#4
  | .ld => 0x2#4
  | .st => 0x3#4
  | .jsr => 0x4#4
  | .and => 0x5#4
  | .ldr => 0x6#4
  | .str => 0x7#4
  | .rti => 0x8#4
  | .not => 0x9#4
  | .ldi => 0xA#4
  | .sti => 0xB#4
  | .jmp => 0xC#4
  | .reserved => 0xD#4
  | .lea => 0xE#4
  | .trap => 0xF#4

/-- The opcode of a word: bits 15:12. -/
def opcodeOf (w : Word) : Opcode := Opcode.ofBits (w.extractLsb' 12 4)

/-- The register in bits 11:9 (DR of a load or an operate instruction, SR of a store). -/
def regA (w : Word) : Reg := Reg.ofBits (w.extractLsb' 9 3)

/-- The register in bits 8:6 (SR1, BaseR). -/
def regB (w : Word) : Reg := Reg.ofBits (w.extractLsb' 6 3)

/-- The register in bits 2:0 (SR2). -/
def regC (w : Word) : Reg := Reg.ofBits (w.extractLsb' 0 3)

/-- imm5, bits 4:0. -/
def imm5Of (w : Word) : BitVec 5 := w.extractLsb' 0 5

/-- offset6, bits 5:0. -/
def off6Of (w : Word) : BitVec 6 := w.extractLsb' 0 6

/-- PCoffset9, bits 8:0. -/
def off9Of (w : Word) : BitVec 9 := w.extractLsb' 0 9

/-- PCoffset11, bits 10:0. -/
def off11Of (w : Word) : BitVec 11 := w.extractLsb' 0 11

/-- trapvect8, bits 7:0. -/
def vectOf (w : Word) : BitVec 8 := w.extractLsb' 0 8

/-- A TRAP word: the routine's own row for the six recognised vectors (R111, R73), TRAP otherwise. -/
def decodeTrap (ignored : BitVec 4) (v : BitVec 8) : Instr :=
  match v.toNat with
  | 0x20 => .getc
  | 0x21 => .out
  | 0x22 => .puts
  | 0x23 => .inp
  | 0x24 => .putsp
  | 0x25 => .halt
  | _ => .trap ignored v

/-- A JMP word: RET's row where BaseR = 7 (R91). -/
def decodeJmp (base : Reg) : Instr :=
  if base = .r7 then .ret else .jmp base

/-- The decoder, spec/30_encoding.md R63 and R71. -/
def decode (w : Word) : Instr :=
  match opcodeOf w with
  | .br => .br (w.getLsbD 11) (w.getLsbD 10) (w.getLsbD 9) (off9Of w)
  | .add => if w.getLsbD 5 then .addImm (regA w) (regB w) (imm5Of w) else .addReg (regA w) (regB w) (regC w)
  | .ld => .ld (regA w) (off9Of w)
  | .st => .st (regA w) (off9Of w)
  | .jsr => if w.getLsbD 11 then .jsr (off11Of w) else .jsrr (regB w)
  | .and => if w.getLsbD 5 then .andImm (regA w) (regB w) (imm5Of w) else .andReg (regA w) (regB w) (regC w)
  | .ldr => .ldr (regA w) (regB w) (off6Of w)
  | .str => .str (regA w) (regB w) (off6Of w)
  | .rti => .rti (w.extractLsb' 0 12)
  | .not => .not (regA w) (regB w)
  | .ldi => .ldi (regA w) (off9Of w)
  | .sti => .sti (regA w) (off9Of w)
  | .jmp => decodeJmp (regB w)
  | .reserved => .reserved (w.extractLsb' 0 12)
  | .lea => .lea (regA w) (off9Of w)
  | .trap => decodeTrap (w.extractLsb' 8 4) (vectOf w)

/-- The opcode of an instruction. -/
def Instr.opcode : Instr → Opcode
  | .addReg _ _ _ => .add
  | .addImm _ _ _ => .add
  | .andReg _ _ _ => .and
  | .andImm _ _ _ => .and
  | .not _ _ => .not
  | .br _ _ _ _ => .br
  | .jmp _ => .jmp
  | .ret => .jmp
  | .jsr _ => .jsr
  | .jsrr _ => .jsr
  | .ld _ _ => .ld
  | .ldi _ _ => .ldi
  | .ldr _ _ _ => .ldr
  | .lea _ _ => .lea
  | .st _ _ => .st
  | .sti _ _ => .sti
  | .str _ _ _ => .str
  | .trap _ _ => .trap
  | .getc => .trap
  | .out => .trap
  | .puts => .trap
  | .inp => .trap
  | .putsp => .trap
  | .halt => .trap
  | .rti _ => .rti
  | .reserved _ => .reserved

/-- Bits 11:0 of an instruction's word, by its format (spec/30_encoding.md R63). Ignored bits are written
as zeros, NOT's as 0b111111, as the assembler writes them (spec/40_operate.md R84). -/
def Instr.operandBits : Instr → BitVec 12
  | .addReg dr sr1 sr2 => dr.bits ++ (sr1.bits ++ (0#3 ++ sr2.bits))
  | .addImm dr sr1 imm5 => dr.bits ++ (sr1.bits ++ (1#1 ++ imm5))
  | .andReg dr sr1 sr2 => dr.bits ++ (sr1.bits ++ (0#3 ++ sr2.bits))
  | .andImm dr sr1 imm5 => dr.bits ++ (sr1.bits ++ (1#1 ++ imm5))
  | .not dr sr1 => dr.bits ++ (sr1.bits ++ 0x3F#6)
  | .br n z p off9 => BitVec.ofBool n ++ (BitVec.ofBool z ++ (BitVec.ofBool p ++ off9))
  | .jmp base => 0#3 ++ (base.bits ++ 0#6)
  | .ret => 0x1C0#12
  | .jsr off11 => 1#1 ++ off11
  | .jsrr base => 0#3 ++ (base.bits ++ 0#6)
  | .ld dr off9 => dr.bits ++ off9
  | .ldi dr off9 => dr.bits ++ off9
  | .ldr dr base off6 => dr.bits ++ (base.bits ++ off6)
  | .lea dr off9 => dr.bits ++ off9
  | .st sr off9 => sr.bits ++ off9
  | .sti sr off9 => sr.bits ++ off9
  | .str sr base off6 => sr.bits ++ (base.bits ++ off6)
  | .trap ignored vect => ignored ++ vect
  | .getc => 0x020#12
  | .out => 0x021#12
  | .puts => 0x022#12
  | .inp => 0x023#12
  | .putsp => 0x024#12
  | .halt => 0x025#12
  | .rti ignored => ignored
  | .reserved ignored => ignored

/-- The word of an instruction. -/
def encode (i : Instr) : Word := i.opcode.bits ++ i.operandBits

/-- The variant of spec/30_encoding.md R71 an instruction is: RET is JMP with BaseR = 7, a trap routine is TRAP
with its vector (R73); every other instruction is itself. -/
def Instr.core : Instr → Instr
  | .addReg dr sr1 sr2 => .addReg dr sr1 sr2
  | .addImm dr sr1 imm5 => .addImm dr sr1 imm5
  | .andReg dr sr1 sr2 => .andReg dr sr1 sr2
  | .andImm dr sr1 imm5 => .andImm dr sr1 imm5
  | .not dr sr1 => .not dr sr1
  | .br n z p off9 => .br n z p off9
  | .jmp base => .jmp base
  | .ret => .jmp .r7
  | .jsr off11 => .jsr off11
  | .jsrr base => .jsrr base
  | .ld dr off9 => .ld dr off9
  | .ldi dr off9 => .ldi dr off9
  | .ldr dr base off6 => .ldr dr base off6
  | .lea dr off9 => .lea dr off9
  | .st sr off9 => .st sr off9
  | .sti sr off9 => .sti sr off9
  | .str sr base off6 => .str sr base off6
  | .trap ignored vect => .trap ignored vect
  | .getc => .trap 0#4 0x20#8
  | .out => .trap 0#4 0x21#8
  | .puts => .trap 0#4 0x22#8
  | .inp => .trap 0#4 0x23#8
  | .putsp => .trap 0#4 0x24#8
  | .halt => .trap 0#4 0x25#8
  | .rti ignored => .rti ignored
  | .reserved ignored => .reserved ignored

/-- The instruction the decoder reads from the table's numbering of a word: one word of 16 bits (R61), bit 0
its least significant bit; bits at and above `nbits` are zero. An instruction longer than one word does not exist. -/
def decodeTableWord (nbits w : Nat) : Option Instr :=
  if nbits ≤ 16 then some (decode (BitVec.ofNat 16 (w % 2 ^ nbits))) else none

end Sys2Proof
end

