-- ==== Sys2Proof/Machine/Trap.lean ====
section
/-! DEFINITION. The `trap_dispatcher` and the undefined opcodes (spec/43_trap_and_undefined.md R110 to R121). A
TRAP saves nothing and writes neither R7 nor PC; it returns by the next fetch (R110, spec/60_exceptions.md R138). -/

namespace Sys2Proof.Machine

/-- `R[0] <- zext_8(b)`, and `setcc` where the open parameter says so (R112, R115; log 16). -/
def State.takeByte (s : State) (b : Byte) : State :=
  { s with
    regs := s.regs.set .r0 (zext8 b)
    cond := if Config.trapInSetsFlags then condOf (zext8 b) else s.cond }

/-- GETC, R112. -/
def getcRoutine (s : State) : State :=
  match consoleIn s with
  | none => s.wait .getc
  | some (b, s') => s'.takeByte b

/-- OUT, R113. -/
def outRoutine (s : State) : State := s.emit [lowByte (s.reg .r0)]

/-- The bytes PUTS writes for one word: its low byte (R114). -/
def plainBytes (w : Word) : List Byte := [lowByte w]

/-- The bytes PUTSP writes for one word: the low byte, then the high byte if it is not zero (R116). A zero high
byte does not end the routine (spec/90_conflicts.md C4; log 19). -/
def packedBytes (w : Word) : List Byte :=
  if highByte w = 0#8 then [lowByte w] else [lowByte w, highByte w]

/-- The loop of PUTS and PUTSP (R114, R116): at most `fuel` reads, from address `a`; `bytes` is what one word
writes, `left` what is left of the routine while it waits. The reads a routine is given are enough: it ends or
waits (log 23); a loop out of reads would be left in progress, as spec/60_exceptions.md R136 has it. -/
def stringLoop (bytes : Word → List Byte) (left : Word → Pending) : Nat → Word → State → State
  | 0, a, s => s.wait (left a)
  | fuel + 1, a, s =>
    match memRead a s with
    | none => s.wait (left a)
    | some (w, s') =>
      if w = 0#16 then s' else stringLoop bytes left fuel (a + 1#16) (s'.emit (bytes w))

/-- Reads enough for any string: each pass over the address space consumes a byte at KBDR, or waits there (log 23). -/
def stringFuel (s : State) : Nat := 65536 * (s.inq.length + 1)

/-- PUTS from address `a`. -/
def putsFrom (a : Word) (s : State) : State := stringLoop plainBytes .puts (stringFuel s) a s

/-- PUTSP from address `a`. -/
def putspFrom (a : Word) (s : State) : State := stringLoop packedBytes .putsp (stringFuel s) a s

/-- PUTS, R114. -/
def putsRoutine (s : State) : State := putsFrom (s.reg .r0) s

/-- PUTSP, R116. -/
def putspRoutine (s : State) : State := putspFrom (s.reg .r0) s

/-- IN after its prompt: the console read, the echo and the register write (R115). -/
def inByteRoutine (s : State) : State :=
  match consoleIn s with
  | none => s.wait .inByte
  | some (b, s') => (s'.emit [b]).takeByte b

/-- IN, R115: the prompt is written before the wait. -/
def inRoutine (s : State) : State := inByteRoutine (s.emit Config.inPrompt)

/-- HALT, R117. -/
def haltRoutine (s : State) : State := (s.emit Config.haltMsg).halt

/-- A TRAP with an unrecognised vector (R118): fatal before any routine effect. -/
def badTrap (ignored : BitVec 4) (vect : BitVec 8) (s : State) : State :=
  s.raiseFatal .badTrap (encode (.trap ignored vect))

/-- TRAP's dispatch on its vector (R110, R111). -/
def dispatchTrap (ignored : BitVec 4) (vect : BitVec 8) (s : State) : State :=
  match vect.toNat with
  | 0x20 => getcRoutine s
  | 0x21 => outRoutine s
  | 0x22 => putsRoutine s
  | 0x23 => inRoutine s
  | 0x24 => putspRoutine s
  | 0x25 => haltRoutine s
  | _ => badTrap ignored vect s

/-- TRAP, R110. -/
def execTrap (ignored : BitVec 4) (vect : BitVec 8) (s : State) : Host.Outcome State Fault Refusal :=
  .next (dispatchTrap ignored vect s)

/-- GETC, R112. -/
def execGetc (s : State) : Host.Outcome State Fault Refusal := .next (getcRoutine s)

/-- OUT, R113. -/
def execOut (s : State) : Host.Outcome State Fault Refusal := .next (outRoutine s)

/-- PUTS, R114. -/
def execPuts (s : State) : Host.Outcome State Fault Refusal := .next (putsRoutine s)

/-- IN, R115. -/
def execIn (s : State) : Host.Outcome State Fault Refusal := .next (inRoutine s)

/-- PUTSP, R116. -/
def execPutsp (s : State) : Host.Outcome State Fault Refusal := .next (putspRoutine s)

/-- HALT, R117. -/
def execHalt (s : State) : Host.Outcome State Fault Refusal := .next (haltRoutine s)

/-- RTI, R120: fatal on every execution. -/
def execRti (ignored : BitVec 12) (s : State) : Host.Outcome State Fault Refusal :=
  .next (s.raiseFatal .rti (encode (.rti ignored)))

/-- The reserved opcode, R121: fatal on every execution. -/
def execReserved (ignored : BitVec 12) (s : State) : Host.Outcome State Fault Refusal :=
  .next (s.raiseFatal .reserved (encode (.reserved ignored)))

end Sys2Proof.Machine
end

