-- ==== Sys2Proof/Machine/Fetch.lean ====
section
/-! DEFINITION. The `instruction_fetch_unit`'s fetch, and the rest of an instruction that waited for a console byte. -/

namespace Sys2Proof.Machine

/-- The fetch of spec/30_encoding.md R60: the word at PC, read as any other word (spec/20_memory.md R55), and the
state after the increment; none where the fetch itself waits, before the increment. -/
def fetch (s : State) : Option (Word × State) :=
  match memRead s.pc s with
  | none => none
  | some (w, s') => some (w, s'.setPc (s'.pc + 1#16))

/-- Fetch, increment, decode and execute (spec/30_encoding.md R60); a fetch that waits is the instruction in progress
(spec/60_exceptions.md R136; log 12). -/
def fetchAndExecute (s : State) : Host.Outcome State Fault Refusal :=
  match fetch s with
  | none => .next (s.wait .fetch)
  | some (w, s') => exec (decode w) s'

/-- The rest of an instruction in progress, from the console read it waits in (spec/10_state.md R31). -/
def resume (p : Pending) (s : State) : Host.Outcome State Fault Refusal :=
  match p with
  | .fetch => fetchAndExecute s
  | .load dr => .next (loadFrom dr kbdrAddr s)
  | .ldiPointer dr => .next (loadIndirect dr kbdrAddr s)
  | .stiPointer sr => .next (storeIndirect sr kbdrAddr s)
  | .getc => .next (getcRoutine s)
  | .inByte => .next (inByteRoutine s)
  | .puts a => .next (putsFrom a s)
  | .putsp a => .next (putspFrom a s)

/-- A core that takes the next fetch at its next step: running, with no stop requested and no instruction in progress. -/
def State.readyToFetch (s : State) : State :=
  { s with
    pc := if s.pc = kbsrAddr ∨ s.pc = kbdrAddr then Config.pcStart else s.pc
    run := .running
    fault := none
    stop := false
    pending := none }

end Sys2Proof.Machine
end

