-- ==== Sys2Proof/Machine/Step.lean ====
section
/-! DEFINITION. One step of the run loop (spec/30_encoding.md R60, spec/70_reset_and_hazards.md R153, R154). -/

namespace Sys2Proof.Machine

/-- One step. A core whose run has ended is unchanged (R30, R153; log 14). With no instruction in progress a stop request
is taken before the fetch (spec/60_exceptions.md R135), and otherwise one instruction is fetched, decoded and executed.
With one in progress a stop request ends the run only while no byte has come; a byte that came first has ended
the wait, so the instruction goes on from its console read and the request is taken at the next step (R136, R144).
With neither, the core still waits: it answers the state it was in (log 12). -/
def step (s : State) : Host.Outcome State Fault Refusal :=
  match s.run with
  | .halted => .next s
  | .faulted => .next s
  | .running =>
    match s.pending with
    | some p => if s.stop && s.waiting then .next s.stopNow else resume p (s.setPending none)
    | none => if s.stop then .next s.stopNow else fetchAndExecute s

/-- The state with the one-word instruction `w` where the next step fetches it, and ready to fetch it: the load
port's write (spec/20_memory.md R57) at PC. A fetch at a device address cannot read a stored word (R42, R55), so a PC there is
moved to PC_START (log 21). -/
def State.withFetchWord (s : State) (nbits w : Nat) : State :=
  s.readyToFetch.setWord s.readyToFetch.pc (BitVec.ofNat 16 (w % 2 ^ nbits))

end Sys2Proof.Machine
end

