-- ==== Sys2Proof/Machine/Ports.lean ====
section
/-! DEFINITION. The core's boundary with the host (spec/60_exceptions.md R146 to R148, spec/20_memory.md R57,
spec/70_reset_and_hazards.md R150). `outq`, `run` and `fault` are ports the host reads as they stand. -/

namespace Sys2Proof.Machine

/-- What the host may do to a running core (R148). -/
inductive HostEvent where
  /-- console_in: one byte delivered. -/
  | byte (b : Byte)
  /-- stop_req: the asynchronous stop request. -/
  | stopRequest
deriving DecidableEq, Repr

/-- console_in: the byte goes to the tail of the queue (R31, R147). -/
def State.deliver (s : State) (b : Byte) : State := s.setInq (s.inq ++ [b])

/-- The stop latch set, and the run ended at once if the core waits with no byte delivered: "While it is in either state,
a stop request ends the run" (spec/60_exceptions.md R136; log 15), whatever bytes come after it. -/
def State.latchStop (s : State) : State :=
  if s.waiting then { s with stop := true }.stopNow else { s with stop := true }

/-- stop_req: it sets the latch; after the run has ended it changes nothing (R135; log 18). -/
def State.requestStop (s : State) : State :=
  match s.run with
  | .running => s.latchStop
  | .halted => s
  | .faulted => s

/-- A host event, which lands between two steps (R137; log 13). -/
def hostEvent (e : HostEvent) (s : State) : State :=
  match e with
  | .byte b => s.deliver b
  | .stopRequest => s.requestStop

/-- Words stored one per address from `a` on. -/
def loadWords : Nat → List Word → Memory → Memory
  | _, [], m => m
  | a, w :: ws, m => loadWords (a + 1) ws (Memory.write m a w)

/-- `LoadImage(origin, words)` (R57), before the first step only: it sets `M[origin + k] <- w[k]` in order and
nothing else; an image past 0xFFFF is refused (decision D21; log 21). -/
def loadImage (origin : Word) (ws : List Word) (s : State) : Option State :=
  if origin.toNat + ws.length ≤ 65536 then some (s.setMem (loadWords origin.toNat ws s.mem)) else none

/-- The words of an image's bytes, two bytes a word, the first the high byte (spec/20_memory.md R49, R57); none for a
last word cut short (a truncated image is a load failure, spec/70_reset_and_hazards.md R152). -/
def imageWords : List Byte → Option (List Word)
  | [] => some []
  | [_] => none
  | b0 :: b1 :: bs =>
    match imageWords bs with
    | none => none
    | some ws => some ((b0 ++ b1) :: ws)

/-- An image: its first word is the origin (R57). -/
def parseImage (bs : List Byte) : Option (Word × List Word) :=
  match imageWords bs with
  | some (origin :: ws) => some (origin, ws)
  | some [] => none
  | none => none

/-- The state as it is created, before the loader runs (R150, step 1). -/
def State.created : State := { State.reset with pc := 0#16 }

/-- start: PC is set to PC_START (R150, step 3). -/
def State.start (s : State) : State := s.setPc Config.pcStart

/-- Images loaded in argument order; later ones may overwrite earlier ones (R57, R150). -/
def loadImages : List (Word × List Word) → State → Option State
  | [], s => some s
  | (origin, ws) :: rest, s =>
    match loadImage origin ws s with
    | none => none
    | some s' => loadImages rest s'

/-- The reset and boot sequence (R150). -/
def boot (images : List (Word × List Word)) : Option State :=
  (loadImages images State.created).map State.start

/-- The exit status the host ends the process with, once the run has ended (R146): a run in HALTED with the stop
latch set was ended by the stop request, since no HALT runs after it (log 18). -/
def exitStatus (s : State) : Option Nat :=
  match s.run with
  | .running => none
  | .halted => some (if s.stop then Config.stopExitStatus else 0)
  | .faulted => some Config.abortExitStatus

end Sys2Proof.Machine
end

