-- ==== Sys2Proof/Safety.lean ====
section
/-! DEFINITION. The terms claims are stated in: the invariant of the machine, what a read gives, what a result, a
store and a string are, and, for each instruction, what it may write. They are written from the spec's sentences
and not from the meanings they are compared with. -/

namespace Sys2Proof.Machine

/-! Addresses and reads. -/

/-- An address of ordinary storage: neither device register (spec/20_memory.md R45, R51). -/
abbrev ordinary (a : Word) : Prop := a ≠ kbsrAddr ∧ a ≠ kbdrAddr

/-- The word a read of `a` gives (spec/20_memory.md R42 to R45); none where it waits for a console byte. -/
def readValue (s : State) (a : Word) : Option Word :=
  if a = kbdrAddr then s.inq.head?.map fun b => BitVec.ofNat 16 b.toNat
  else if a = kbsrAddr then some (if s.inq.isEmpty then kbsrIdle else kbsrReady)
  else some (s.word a)

/-- The state after that read: KBDR's has consumed a byte, no other read has an effect. -/
def afterRead (s : State) (a : Word) : State :=
  if a = kbdrAddr then { s with inq := s.inq.tail } else s

/-! Results, flags and stores. -/

/-- The flag of a word by its signed interpretation (spec/95_test_vectors.md W2). -/
def signFlag (v : Word) : Cond :=
  if v.toInt = 0 then .z else if v.toInt < 0 then .n else .p

/-- `t` is `s` with register `dr` holding `r` and nothing else changed. -/
def WritesReg (s t : State) (dr : Reg) (r : Word) : Prop :=
  t.reg dr = r ∧ (∀ q, q ≠ dr → t.reg q = s.reg q) ∧ t = { s with regs := t.regs }

/-- `t` is `s` with register `dr` holding `r`, COND its flag, and nothing else changed. -/
def ResultIs (s t : State) (dr : Reg) (r : Word) : Prop :=
  t.reg dr = r ∧ (∀ q, q ≠ dr → t.reg q = s.reg q) ∧ t.cond = signFlag r ∧
    t = { s with regs := t.regs, cond := t.cond }

/-- `t` is `s` with the word `v` stored at `a` and nothing else changed; at a device address nothing changes at all
(spec/20_memory.md R46, R47). -/
def StoreIs (s t : State) (a v : Word) : Prop :=
  (∀ b : Word, t.word b = if b = a ∧ ordinary a then v else s.word b) ∧ t = { s with mem := t.mem }

/-- PC plus a signed offset, modulo 2^16 (spec/30_encoding.md R66). -/
def pcPlus {n : Nat} (s : State) (off : BitVec n) : Word := BitVec.ofInt 16 (s.pc.toNat + off.toInt)

/-- A register plus a signed offset, modulo 2^16 (spec/30_encoding.md R66). -/
def regPlus {n : Nat} (s : State) (r : Reg) (off : BitVec n) : Word :=
  BitVec.ofInt 16 ((s.reg r).toNat + off.toInt)

/-- A zero-terminated string of ordinary storage from `a` on: the words of `cs` and then 0x0000 (R114). -/
def StringAt (s : State) : Word → List Word → Prop
  | a, [] => ordinary a ∧ s.word a = 0#16
  | a, c :: cs => ordinary a ∧ s.word a = c ∧ c ≠ 0#16 ∧ StringAt s (a + 1#16) cs

end Sys2Proof.Machine

namespace Sys2Proof

open Sys2Proof.Machine

/-! What each instruction may write. A TRAP with a recognised vector is its routine (R110, R111). -/

/-- The general register an instruction writes (spec/10_state.md R20). -/
def Instr.dest : Instr → Option Reg
  | .addReg dr _ _ => some dr
  | .addImm dr _ _ => some dr
  | .andReg dr _ _ => some dr
  | .andImm dr _ _ => some dr
  | .not dr _ => some dr
  | .br _ _ _ _ => none
  | .jmp _ => none
  | .ret => none
  | .jsr _ => some .r7
  | .jsrr _ => some .r7
  | .ld dr _ => some dr
  | .ldi dr _ => some dr
  | .ldr dr _ _ => some dr
  | .lea dr _ => some dr
  | .st _ _ => none
  | .sti _ _ => none
  | .str _ _ _ => none
  | .trap _ vect => if vect = 0x20#8 ∨ vect = 0x23#8 then some .r0 else none
  | .getc => some .r0
  | .out => none
  | .puts => none
  | .inp => some .r0
  | .putsp => none
  | .halt => none
  | .rti _ => none
  | .reserved _ => none

/-- The instruction sets COND from its destination whatever the open parameter is (spec/10_state.md R25). -/
def Instr.setsCond : Instr → Bool
  | .addReg _ _ _ => true
  | .addImm _ _ _ => true
  | .andReg _ _ _ => true
  | .andImm _ _ _ => true
  | .not _ _ => true
  | .br _ _ _ _ => false
  | .jmp _ => false
  | .ret => false
  | .jsr _ => false
  | .jsrr _ => false
  | .ld _ _ => true
  | .ldi _ _ => true
  | .ldr _ _ _ => true
  | .lea _ _ => true
  | .st _ _ => false
  | .sti _ _ => false
  | .str _ _ _ => false
  | .trap _ _ => false
  | .getc => false
  | .out => false
  | .puts => false
  | .inp => false
  | .putsp => false
  | .halt => false
  | .rti _ => false
  | .reserved _ => false

/-- The instruction is TRAP with this vector, under either of its names. -/
def Instr.isTrap (v : BitVec 8) (i : Instr) : Prop :=
  (∃ ignored, i = .trap ignored v) ∨ i.core = .trap 0#4 v

/-- The instruction is BR. -/
def Instr.isBr (i : Instr) : Prop := ∃ n z p off9, i = .br n z p off9

/-- The instruction writes PC (spec/41_control.md). -/
def Instr.writesPc (i : Instr) : Prop := i.opcode = .br ∨ i.opcode = .jmp ∨ i.opcode = .jsr

/-- The instruction may write `outq`: OUT, PUTS, IN, PUTSP, HALT (spec/10_state.md R32). -/
def Instr.writesConsole (i : Instr) : Prop :=
  i.isTrap 0x21#8 ∨ i.isTrap 0x22#8 ∨ i.isTrap 0x23#8 ∨ i.isTrap 0x24#8 ∨ i.isTrap 0x25#8

/-- The fatal condition of an instruction (spec/60_exceptions.md R130). -/
def Instr.fatal : Instr → Option FatalCode
  | .addReg _ _ _ => none
  | .addImm _ _ _ => none
  | .andReg _ _ _ => none
  | .andImm _ _ _ => none
  | .not _ _ => none
  | .br _ _ _ _ => none
  | .jmp _ => none
  | .ret => none
  | .jsr _ => none
  | .jsrr _ => none
  | .ld _ _ => none
  | .ldi _ _ => none
  | .ldr _ _ _ => none
  | .lea _ _ => none
  | .st _ _ => none
  | .sti _ _ => none
  | .str _ _ _ => none
  | .trap _ vect => if 0x20 ≤ vect.toNat ∧ vect.toNat ≤ 0x25 then none else some .badTrap
  | .getc => none
  | .out => none
  | .puts => none
  | .inp => none
  | .putsp => none
  | .halt => none
  | .rti _ => some .rti
  | .reserved _ => some .reserved

/-- The register whose word a store writes. -/
def Instr.storeSource : Instr → Option Reg
  | .addReg _ _ _ => none
  | .addImm _ _ _ => none
  | .andReg _ _ _ => none
  | .andImm _ _ _ => none
  | .not _ _ => none
  | .br _ _ _ _ => none
  | .jmp _ => none
  | .ret => none
  | .jsr _ => none
  | .jsrr _ => none
  | .ld _ _ => none
  | .ldi _ _ => none
  | .ldr _ _ _ => none
  | .lea _ _ => none
  | .st sr _ => some sr
  | .sti sr _ => some sr
  | .str sr _ _ => some sr
  | .trap _ _ => none
  | .getc => none
  | .out => none
  | .puts => none
  | .inp => none
  | .putsp => none
  | .halt => none
  | .rti _ => none
  | .reserved _ => none

/-- The address a store writes to, for an instruction executed in state `s`: STI's is the word its pointer read
gives, none while that read waits (spec/42_load_store.md R104 to R106). -/
def Instr.storeTarget (i : Instr) (s : State) : Option Word :=
  match i with
  | .addReg _ _ _ => none
  | .addImm _ _ _ => none
  | .andReg _ _ _ => none
  | .andImm _ _ _ => none
  | .not _ _ => none
  | .br _ _ _ _ => none
  | .jmp _ => none
  | .ret => none
  | .jsr _ => none
  | .jsrr _ => none
  | .ld _ _ => none
  | .ldi _ _ => none
  | .ldr _ _ _ => none
  | .lea _ _ => none
  | .st _ off9 => some (pcRel s off9)
  | .sti _ off9 => (memRead (pcRel s off9) s).map Prod.fst
  | .str _ base off6 => some (baseRel s base off6)
  | .trap _ _ => none
  | .getc => none
  | .out => none
  | .puts => none
  | .inp => none
  | .putsp => none
  | .halt => none
  | .rti _ => none
  | .reserved _ => none

/-- The bits of an instruction's word that its format uses (spec/30_encoding.md R63, R68). The words a fault can record
(RTI, the reserved opcode, an unrecognised vector) count as used whole (log 9). -/
def Instr.usedBits : Instr → Word
  | .addReg _ _ _ => 0xFFE7#16
  | .addImm _ _ _ => 0xFFFF#16
  | .andReg _ _ _ => 0xFFE7#16
  | .andImm _ _ _ => 0xFFFF#16
  | .not _ _ => 0xFFC0#16
  | .br _ _ _ _ => 0xFFFF#16
  | .jmp _ => 0xF1C0#16
  | .ret => 0xF1C0#16
  | .jsr _ => 0xFFFF#16
  | .jsrr _ => 0xF9C0#16
  | .ld _ _ => 0xFFFF#16
  | .ldi _ _ => 0xFFFF#16
  | .ldr _ _ _ => 0xFFFF#16
  | .lea _ _ => 0xFFFF#16
  | .st _ _ => 0xFFFF#16
  | .sti _ _ => 0xFFFF#16
  | .str _ _ _ => 0xFFFF#16
  | .trap _ _ => 0xFFFF#16
  | .getc => 0xF0FF#16
  | .out => 0xF0FF#16
  | .puts => 0xF0FF#16
  | .inp => 0xF0FF#16
  | .putsp => 0xF0FF#16
  | .halt => 0xF0FF#16
  | .rti _ => 0xFFFF#16
  | .reserved _ => 0xFFFF#16

end Sys2Proof

namespace Sys2Proof.Machine

/-! The run. -/

/-- The core takes a fetch at its next step. -/
def Fetching (s : State) : Prop := s.run = .running ∧ s.stop = false ∧ s.pending = none

/-- A fetch in progress, at PC `pc`, and a string routine in progress wait at KBDR. -/
def pendingAtKbdr (pc : Word) : Option Pending → Bool
  | none => true
  | some .fetch => pc = kbdrAddr
  | some (.load _) => true
  | some (.ldiPointer _) => true
  | some (.stiPointer _) => true
  | some .getc => true
  | some .inByte => true
  | some (.puts a) => a = kbdrAddr
  | some (.putsp a) => a = kbdrAddr

/-- The invariant of the machine: memory is in its canonical form; a fault is recorded exactly in FAULTED
(spec/10_state.md R35); only a running core has an instruction in progress (R30), and a fetch or a string routine in
progress waits at KBDR (spec/60_exceptions.md R136). -/
structure State.Inv (s : State) : Prop where
  memory : Memory.wf s.mem = true
  fault : s.fault.isSome = true ↔ s.run = .faulted
  running : s.pending ≠ none → s.run = .running
  atKbdr : pendingAtKbdr s.pc s.pending = true

end Sys2Proof.Machine
end

