-- ==== Sys2Proof/Certificates/Slice0/Obligations.lean ====
section
/-! DEFINITION. The statements about the model, from the rules of spec/. The numbers of the opcodes and of the trap
vectors and the positions of most fields are the spec's own decisions D8, D9 and D10 (log 8), and the device addresses
its decision D2 (log 3): a statement that rests on one says so by its basis. -/

open Sys2Proof Sys2Proof.Machine

/-! Reset, the run and the invariant. -/

/-- Reset leaves what the table of spec/10_state.md R36 says. The PC's value is decision D1 (log 2), the zero memory
decision D7 (log 7), the empty queue and the clear latch log 20, no instruction in progress log 12. -/
def Obligations.ResetIsTheStateOfTheSpec : Prop :=
  (∀ r, State.reset.reg r = 0#16) ∧ State.reset.pc = 0x3000#16 ∧ State.reset.cond = .z ∧
    (∀ a, State.reset.word a = 0#16) ∧ State.reset.run = .running ∧ State.reset.fault = none ∧
    State.reset.inq = [] ∧ State.reset.outq = [] ∧ State.reset.stop = false ∧ State.reset.pending = none

/-- The invariant holds at reset. -/
def Obligations.ResetMeetsTheInvariant : Prop := State.reset.Inv

/-- From every state with the invariant a step answers a state with it: memory stays canonical (log 1), a fault is
recorded exactly in FAULTED (R35), an instruction in progress belongs to a running core, and a fetch or a string routine
in progress waits at KBDR (log 12, log 23). -/
def Obligations.StepKeepsTheInvariant : Prop :=
  ∀ s t : State, s.Inv → step s = .next t → t.Inv

/-- The host's events do what R148 lists and no more, and keep the invariant: a byte goes to the tail of `inq` (R31); a stop
request sets the latch of a running core, ending the run at once if an instruction waits with no byte delivered (R136; log 15),
and changes nothing after the end (R135; log 18). -/
def Obligations.HostEventsDoOnlyTheirOwn : Prop :=
  (∀ (s : State) b, hostEvent (.byte b) s = { s with inq := s.inq ++ [b] }) ∧
  (∀ s : State, s.run ≠ .running → hostEvent .stopRequest s = s) ∧
  (∀ s : State, s.run = .running → (s.pending = none ∨ s.inq ≠ []) → hostEvent .stopRequest s = { s with stop := true }) ∧
  (∀ s : State, s.run = .running → s.pending ≠ none → s.inq = [] →
    hostEvent .stopRequest s = { s with stop := true, run := .halted, pending := none }) ∧
  (∀ (s : State) e, s.Inv → (hostEvent e s).Inv)

/-- No state has a step that faults or is refused: every exception the spec has is a next state (R132; log 11), every word
decodes (R71), and a core that waits or has ended answers its state (log 12, log 14). -/
def Obligations.EveryStepAnswersANextState : Prop :=
  ∀ s : State, ∃ t, step s = .next t

/-- The step of spec/30_encoding.md R60 on a core that is to fetch: the word a read of PC gives is decoded and executed with PC
incremented; a fetch that waits changes nothing, PC included, and is the instruction in progress (R136; log 12). -/
def Obligations.StepRunsTheDecodedInstruction : Prop :=
  (∀ s w, Fetching s → readValue s s.pc = some w →
    step s = exec (decode w) { afterRead s s.pc with pc := s.pc + 1#16 }) ∧
  (∀ s : State, Fetching s → readValue s s.pc = none → step s = .next { s with pending := some .fetch })

/-- A stop request is taken at the start of a step, before the fetch, and during a wait with no byte delivered: the run ends in
HALTED and an instruction in progress is abandoned; nothing else changes (spec/60_exceptions.md R135, R136; sampling point:
decision D19, log 15). A byte that came before the request has ended the wait (R144): the step is the one it would have been
without the request, which the next step takes. A request that comes before the byte ends the run whatever comes after it. -/
def Obligations.StopRequestEndsTheRun : Prop :=
  (∀ s : State, s.run = .running → s.stop = true → (s.pending = none ∨ s.inq = []) →
    step s = .next { s with run := .halted, pending := none }) ∧
  (∀ s : State, s.run = .running → s.pending ≠ none → s.inq ≠ [] → ∃ t, step { s with stop := false } = .next t ∧
    step { s with stop := true } = .next { t with stop := true }) ∧
  (∀ (s : State) b, s.run = .running → s.pending ≠ none → s.inq = [] →
    step (s.requestStop.deliver b) = .next { s with stop := true, run := .halted, pending := none, inq := [b] })

/-- The transitions of spec/70_reset_and_hazards.md R153, FAULTED being decision D18 (log 11): a run that has ended is
unchanged; of a running core's instructions HALT alone ends the run in HALTED, the fatal ones end it in FAULTED, every
other leaves it RUNNING with no fault recorded. -/
def Obligations.RunStateTransitions : Prop :=
  (∀ s : State, s.run ≠ .running → step s = .next s) ∧
  (∀ i s t, exec i s = .next t → i.isTrap 0x25#8 → t.run = .halted ∧ t.fault = s.fault) ∧
  (∀ i s t c, exec i s = .next t → i.fatal = some c →
    t.run = .faulted ∧ ∃ w, t.fault = some ⟨c, s.pc - 1#16, w⟩) ∧
  (∀ i s t, exec i s = .next t → ¬ i.isTrap 0x25#8 → i.fatal = none → t.run = s.run ∧ t.fault = s.fault)

/-! Encoding. -/

/-- Decoding the word of a well-formed instruction gives the instruction back, whatever its operands. -/
def Obligations.DecodeOfEncode : Prop :=
  ∀ i : Instr, i.wf = true → decode (encode i) = i

/-- Every word decodes to the opcode table's own name of it, and to the variant of R71 with the opcode in bits 15:12. -/
def Obligations.DecodedWordIsWellFormed : Prop :=
  ∀ w : Word, (decode w).wf = true ∧ (decode w).opcode = Opcode.ofBits (w.extractLsb' 12 4)

/-- No bit a format uses is dropped or moved: the word of the decoded instruction agrees with the word it was read from on
every bit R63 gives a field. -/
def Obligations.EncodeOfDecodeKeepsUsedBits : Prop :=
  ∀ w : Word, encode (decode w) &&& (decode w).usedBits = w &&& (decode w).usedBits

/-- Bits no field uses are not read (R68, decision D11; log 9): two words that agree on the used bits are the same
instruction; where a fault records the word (log 9), its ignored bits change the record and nothing else. -/
def Obligations.IgnoredBitsChangeNothing : Prop :=
  (∀ w x : Word, x &&& (decode w).usedBits = w &&& (decode w).usedBits → decode x = decode w) ∧
  (∀ (x y : BitVec 12) s, ∃ u v, exec (.rti x) s = .next u ∧ exec (.rti y) s = .next v ∧ u = { v with fault := u.fault }) ∧
  (∀ (x y : BitVec 12) s, ∃ u v, exec (.reserved x) s = .next u ∧ exec (.reserved y) s = .next v ∧
    u = { v with fault := u.fault }) ∧
  (∀ (x y : BitVec 4) vect s, ∃ u v, exec (.trap x vect) s = .next u ∧ exec (.trap y vect) s = .next v ∧
    u = { v with fault := u.fault })

/-- Words of spec/95_test_vectors.md and what they stand for (numbers and positions: log 8). -/
def Obligations.WrittenOutWordsDecode : Prop :=
  decode 0x1042#16 = .addReg .r0 .r1 .r2 ∧ decode 0x1025#16 = .addImm .r0 .r0 5#5 ∧
  decode 0x54C4#16 = .andReg .r2 .r3 .r4 ∧ decode 0x52BE#16 = .andImm .r1 .r2 30#5 ∧
  decode 0x997F#16 = .not .r4 .r5 ∧ decode 0x0A03#16 = .br true false true 3#9 ∧
  decode 0xC080#16 = .jmp .r2 ∧ decode 0xC1C0#16 = .ret ∧ decode 0x4803#16 = .jsr 3#11 ∧
  decode 0x40C0#16 = .jsrr .r3 ∧ decode 0xA404#16 = .ldi .r2 4#9 ∧ decode 0x6280#16 = .ldr .r1 .r2 0#6 ∧
  decode 0x37FE#16 = .st .r3 510#9 ∧ decode 0x7281#16 = .str .r1 .r2 1#6 ∧ decode 0xF021#16 = .out ∧
  decode 0xF026#16 = .trap 0#4 0x26#8 ∧ decode 0x8000#16 = .rti 0#12 ∧ decode 0xD123#16 = .reserved 0x123#12

/-! Operands and flags. -/

/-- Sign extension as R64 writes it, and for every width that it is the two's-complement value. -/
def Obligations.SignExtensionIsTwosComplement : Prop :=
  ∀ (n : Nat) (f : BitVec n), 1 ≤ n → n ≤ 16 →
    (sext f).toInt = f.toInt ∧
    (f.getLsbD (n - 1) = true → sext f = f.setWidth 16 ||| (0xFFFF#16 <<< n)) ∧
    (f.getLsbD (n - 1) = false → sext f = f.setWidth 16)

/-- `setcc` sets COND to exactly one value, by the word (R26), which is the sign of its signed interpretation, and changes
nothing else. -/
def Obligations.SetccFollowsTheSign : Prop :=
  ∀ (s : State) v, ∃ c, State.setcc s v = { s with cond := c } ∧
    (c = .z ↔ v = 0x0000#16) ∧ (c = .n ↔ v.getLsbD 15 = true) ∧ (c = .p ↔ v ≠ 0x0000#16 ∧ v.getLsbD 15 = false) ∧
    c = signFlag v

/-- COND is written only by the listed instructions, each from its destination register, by GETC and IN exactly when the open
parameter says so, and read only by BR (R25). An instruction that waits has not reached its last step. -/
def Obligations.CondIsWrittenAndReadOnlyAsListed : Prop :=
  (∀ i s t, exec i s = .next t → s.pending = none → i.setsCond = true →
    (t.pending = none → ∃ dr, i.dest = some dr ∧ t.cond = signFlag (t.reg dr)) ∧ (t.pending ≠ none → t.cond = s.cond)) ∧
  (∀ i s t, exec i s = .next t → s.pending = none → (i.isTrap 0x20#8 ∨ i.isTrap 0x23#8) →
    t.cond = if t.pending = none ∧ Config.trapInSetsFlags = true then signFlag (t.reg .r0) else s.cond) ∧
  (∀ i s t, exec i s = .next t → i.setsCond = false → ¬ i.isTrap 0x20#8 → ¬ i.isTrap 0x23#8 → t.cond = s.cond) ∧
  (∀ i s c, ¬ i.isBr → ∃ t, exec i s = .next t ∧
    (exec i { s with cond := c } = .next t ∨ exec i { s with cond := c } = .next { t with cond := c }))

/-! The operate instructions (spec/40_operate.md). Each statement gives the table row's words, the result, the flag and, by
`ResultIs`, the frame: no other register, flag, memory word, queue or special state changes. -/

/-- ADD (register), R80. -/
def Obligations.AddRegister : Prop :=
  (∀ w : Word, w &&& 0xF020#16 = 0x1000#16 → decode w =
    .addReg (Reg.ofBits (w.extractLsb' 9 3)) (Reg.ofBits (w.extractLsb' 6 3)) (Reg.ofBits (w.extractLsb' 0 3))) ∧
  (∀ dr sr1 sr2 s, ∃ t, exec (.addReg dr sr1 sr2) s = .next t ∧
    ResultIs s t dr (BitVec.ofNat 16 ((s.reg sr1).toNat + (s.reg sr2).toNat)))

/-- ADD (immediate), R81: imm5 is added as a signed number from -16 to 15. -/
def Obligations.AddImmediate : Prop :=
  (∀ w : Word, w &&& 0xF020#16 = 0x1020#16 → decode w =
    .addImm (Reg.ofBits (w.extractLsb' 9 3)) (Reg.ofBits (w.extractLsb' 6 3)) (w.extractLsb' 0 5)) ∧
  (∀ dr sr1 (imm5 : BitVec 5) s, ∃ t, exec (.addImm dr sr1 imm5) s = .next t ∧
    ResultIs s t dr (BitVec.ofInt 16 ((s.reg sr1).toInt + imm5.toInt)))

/-- AND (register), R82. -/
def Obligations.AndRegister : Prop :=
  (∀ w : Word, w &&& 0xF020#16 = 0x5000#16 → decode w =
    .andReg (Reg.ofBits (w.extractLsb' 9 3)) (Reg.ofBits (w.extractLsb' 6 3)) (Reg.ofBits (w.extractLsb' 0 3))) ∧
  (∀ dr sr1 sr2 s, ∃ t r, exec (.andReg dr sr1 sr2) s = .next t ∧ ResultIs s t dr r ∧
    ∀ k, r.getLsbD k = ((s.reg sr1).getLsbD k && (s.reg sr2).getLsbD k))

/-- AND (immediate), R83: a negative imm5 keeps bits 15:5 of SR1, a non-negative one clears them. -/
def Obligations.AndImmediate : Prop :=
  (∀ w : Word, w &&& 0xF020#16 = 0x5020#16 → decode w =
    .andImm (Reg.ofBits (w.extractLsb' 9 3)) (Reg.ofBits (w.extractLsb' 6 3)) (w.extractLsb' 0 5)) ∧
  (∀ dr sr1 (imm5 : BitVec 5) s, ∃ t r, exec (.andImm dr sr1 imm5) s = .next t ∧ ResultIs s t dr r ∧
    (∀ k, k < 5 → r.getLsbD k = ((s.reg sr1).getLsbD k && imm5.getLsbD k)) ∧
    (∀ k, 5 ≤ k → k < 16 → r.getLsbD k = ((s.reg sr1).getLsbD k && imm5.getLsbD 4)))

/-- NOT, R84. -/
def Obligations.NotComplements : Prop :=
  (∀ w : Word, w &&& 0xF000#16 = 0x9000#16 → decode w =
    .not (Reg.ofBits (w.extractLsb' 9 3)) (Reg.ofBits (w.extractLsb' 6 3))) ∧
  (∀ dr sr1 s, ∃ t r, exec (.not dr sr1) s = .next t ∧ ResultIs s t dr r ∧
    ∀ k, k < 16 → r.getLsbD k = !(s.reg sr1).getLsbD k)

/-- The laws of the ALU (R85): the sum is the same word read as unsigned or as two's complement, with nothing recorded
beyond the flag of the wrapped result; `a + ~b + 1` is `a - b` and `~(~a & ~b)` is `a | b`, run as the instructions. -/
def Obligations.AluLaws : Prop :=
  (∀ dr sr1 sr2 s, ∃ t, exec (.addReg dr sr1 sr2) s = .next t ∧
    (t.reg dr).toNat = ((s.reg sr1).toNat + (s.reg sr2).toNat) % 2 ^ 16 ∧
    t.reg dr = BitVec.ofInt 16 ((s.reg sr1).toInt + (s.reg sr2).toInt) ∧
    t.cond = signFlag (t.reg dr) ∧ t = { s with regs := t.regs, cond := t.cond }) ∧
  (∀ d a b s, d ≠ a → ∃ t u v, exec (.not d b) s = .next t ∧ exec (.addImm d d 1#5) t = .next u ∧
    exec (.addReg d a d) u = .next v ∧ v.reg d = s.reg a - s.reg b) ∧
  (∀ d e a b s, d ≠ e → d ≠ b → ∃ t u v x, exec (.not d a) s = .next t ∧ exec (.not e b) t = .next u ∧
    exec (.andReg d d e) u = .next v ∧ exec (.not d d) v = .next x ∧ x.reg d = s.reg a ||| s.reg b)

/-! Control transfer (spec/41_control.md). -/

/-- BR, R90: taken exactly when one of its condition bits names COND, which is the mask test of R27; the target is PC
plus the signed offset; nothing but PC changes. -/
def Obligations.BranchFollowsCond : Prop :=
  (∀ w : Word, w &&& 0xF000#16 = 0x0000#16 → decode w =
    .br (w.getLsbD 11) (w.getLsbD 10) (w.getLsbD 9) (w.extractLsb' 0 9)) ∧
  (∀ n z p (off9 : BitVec 9) s,
    ((n = true ∧ s.cond = .n) ∨ (z = true ∧ s.cond = .z) ∨ (p = true ∧ s.cond = .p)) →
      exec (.br n z p off9) s = .next { s with pc := pcPlus s off9 }) ∧
  (∀ n z p (off9 : BitVec 9) s,
    ¬ ((n = true ∧ s.cond = .n) ∨ (z = true ∧ s.cond = .z) ∨ (p = true ∧ s.cond = .p)) →
      exec (.br n z p off9) s = .next s) ∧
  (∀ (w : Word) (c : Cond), branchTaken (w.getLsbD 11) (w.getLsbD 10) (w.getLsbD 9) c = true ↔
    (w.extractLsb' 9 3).setWidth 16 &&& c.toWord ≠ 0#16)

/-- JMP and RET, R91: PC takes the base register's word, RET's being R7's; nothing else changes. -/
def Obligations.JumpTakesTheBaseRegister : Prop :=
  (∀ w : Word, w &&& 0xF000#16 = 0xC000#16 →
    decode w = if w.extractLsb' 6 3 = 7#3 then .ret else .jmp (Reg.ofBits (w.extractLsb' 6 3))) ∧
  (∀ base s, exec (.jmp base) s = .next { s with pc := s.reg base }) ∧
  (∀ s : State, exec .ret s = .next { s with pc := s.reg .r7 } ∧ exec .ret s = exec (.jmp .r7) s)

/-- JSR, R92: R7 takes the address of the word after the JSR, PC the target; COND and everything else are unchanged. -/
def Obligations.JsrLinksAndJumps : Prop :=
  (∀ w : Word, w &&& 0xF800#16 = 0x4800#16 → decode w = .jsr (w.extractLsb' 0 11)) ∧
  (∀ (off11 : BitVec 11) s, ∃ t, exec (.jsr off11) s = .next { t with pc := pcPlus s off11 } ∧ WritesReg s t .r7 s.pc)

/-- JSRR, R93, for both values of JSRR_LINK_ORDER (R12; log 16), which differ only for BaseR = 7. -/
def Obligations.JsrrLinksAndJumps : Prop :=
  (∀ w : Word, w &&& 0xF800#16 = 0x4000#16 → decode w = .jsrr (Reg.ofBits (w.extractLsb' 6 3))) ∧
  (∀ base s, ∃ t target, exec (.jsrr base) s = .next { t with pc := target } ∧ WritesReg s t .r7 s.pc ∧
    target = if base = .r7 then
      match Config.jsrrLinkOrder with
      | .linkFirst => s.pc
      | .targetFirst => s.reg .r7
    else s.reg base)

/-! Loads, LEA and stores (spec/42_load_store.md). A load completes when its reads give a word; a read of KBDR with no byte
delivered waits (R44), with the rest of the instruction in progress (log 12). -/

/-- LD, R100. -/
def Obligations.LoadPcRelative : Prop :=
  (∀ w : Word, w &&& 0xF000#16 = 0x2000#16 → decode w = .ld (Reg.ofBits (w.extractLsb' 9 3)) (w.extractLsb' 0 9)) ∧
  (∀ dr (off9 : BitVec 9) s r, readValue s (pcPlus s off9) = some r →
    ∃ t, exec (.ld dr off9) s = .next t ∧ ResultIs (afterRead s (pcPlus s off9)) t dr r) ∧
  (∀ dr (off9 : BitVec 9) s, readValue s (pcPlus s off9) = none →
    exec (.ld dr off9) s = .next { s with pending := some (.load dr) })

/-- LDI, R101: the pointer is read first, then the data, each with the effects of its read. -/
def Obligations.LoadIndirect : Prop :=
  (∀ w : Word, w &&& 0xF000#16 = 0xA000#16 → decode w = .ldi (Reg.ofBits (w.extractLsb' 9 3)) (w.extractLsb' 0 9)) ∧
  (∀ dr (off9 : BitVec 9) s ea r, readValue s (pcPlus s off9) = some ea →
    readValue (afterRead s (pcPlus s off9)) ea = some r →
    ∃ t, exec (.ldi dr off9) s = .next t ∧ ResultIs (afterRead (afterRead s (pcPlus s off9)) ea) t dr r) ∧
  (∀ dr (off9 : BitVec 9) s, readValue s (pcPlus s off9) = none →
    exec (.ldi dr off9) s = .next { s with pending := some (.ldiPointer dr) }) ∧
  (∀ dr (off9 : BitVec 9) s ea, readValue s (pcPlus s off9) = some ea →
    readValue (afterRead s (pcPlus s off9)) ea = none →
    exec (.ldi dr off9) s = .next { afterRead s (pcPlus s off9) with pending := some (.load dr) })

/-- LDR, R102. -/
def Obligations.LoadBaseOffset : Prop :=
  (∀ w : Word, w &&& 0xF000#16 = 0x6000#16 → decode w =
    .ldr (Reg.ofBits (w.extractLsb' 9 3)) (Reg.ofBits (w.extractLsb' 6 3)) (w.extractLsb' 0 6)) ∧
  (∀ dr base (off6 : BitVec 6) s r, readValue s (regPlus s base off6) = some r →
    ∃ t, exec (.ldr dr base off6) s = .next t ∧ ResultIs (afterRead s (regPlus s base off6)) t dr r) ∧
  (∀ dr base (off6 : BitVec 6) s, readValue s (regPlus s base off6) = none →
    exec (.ldr dr base off6) s = .next { s with pending := some (.load dr) })

/-- LEA, R103: no memory access, so no device effect; it sets COND. -/
def Obligations.LeaComputesTheAddress : Prop :=
  (∀ w : Word, w &&& 0xF000#16 = 0xE000#16 → decode w = .lea (Reg.ofBits (w.extractLsb' 9 3)) (w.extractLsb' 0 9)) ∧
  (∀ dr (off9 : BitVec 9) s, ∃ t, exec (.lea dr off9) s = .next t ∧ ResultIs s t dr (pcPlus s off9))

/-- ST, R104, from every canonical memory: by `StoreIs` the word at the address, every other word and all other state; at a
device address nothing changes (R47, decision D4; log 5). -/
def Obligations.StorePcRelative : Prop :=
  (∀ w : Word, w &&& 0xF000#16 = 0x3000#16 → decode w = .st (Reg.ofBits (w.extractLsb' 9 3)) (w.extractLsb' 0 9)) ∧
  (∀ sr (off9 : BitVec 9) s, Memory.wf s.mem = true →
    ∃ t, exec (.st sr off9) s = .next t ∧ StoreIs s t (pcPlus s off9) (s.reg sr))

/-- STI, R105: the pointer read happens before the write. -/
def Obligations.StoreIndirect : Prop :=
  (∀ w : Word, w &&& 0xF000#16 = 0xB000#16 → decode w = .sti (Reg.ofBits (w.extractLsb' 9 3)) (w.extractLsb' 0 9)) ∧
  (∀ sr (off9 : BitVec 9) s ea, Memory.wf s.mem = true → readValue s (pcPlus s off9) = some ea →
    ∃ t, exec (.sti sr off9) s = .next t ∧ StoreIs (afterRead s (pcPlus s off9)) t ea (s.reg sr)) ∧
  (∀ sr (off9 : BitVec 9) s, readValue s (pcPlus s off9) = none →
    exec (.sti sr off9) s = .next { s with pending := some (.stiPointer sr) })

/-- STR, R106; SR = BaseR stores the base address itself. -/
def Obligations.StoreBaseOffset : Prop :=
  (∀ w : Word, w &&& 0xF000#16 = 0x7000#16 → decode w =
    .str (Reg.ofBits (w.extractLsb' 9 3)) (Reg.ofBits (w.extractLsb' 6 3)) (w.extractLsb' 0 6)) ∧
  (∀ sr base (off6 : BitVec 6) s, Memory.wf s.mem = true →
    ∃ t, exec (.str sr base off6) s = .next t ∧ StoreIs s t (regPlus s base off6) (s.reg sr))

/-! TRAP, its routines and the undefined opcodes (spec/43_trap_and_undefined.md). -/

/-- TRAP's words and dispatch (R110, R111; vector numbers: decision D10, log 8): the six recognised vectors are the
routines whatever bits 11:8 are, under TRAP's name and under the routine's own; a TRAP x21 completes as OUT. -/
def Obligations.TrapDispatchesOnItsVector : Prop :=
  (∀ w : Word, w &&& 0xF0FF#16 = 0xF020#16 → decode w = .getc) ∧
  (∀ w : Word, w &&& 0xF0FF#16 = 0xF021#16 → decode w = .out) ∧
  (∀ w : Word, w &&& 0xF0FF#16 = 0xF022#16 → decode w = .puts) ∧
  (∀ w : Word, w &&& 0xF0FF#16 = 0xF023#16 → decode w = .inp) ∧
  (∀ w : Word, w &&& 0xF0FF#16 = 0xF024#16 → decode w = .putsp) ∧
  (∀ w : Word, w &&& 0xF0FF#16 = 0xF025#16 → decode w = .halt) ∧
  (∀ w : Word, w &&& 0xF000#16 = 0xF000#16 → (w.toNat % 256 < 0x20 ∨ 0x25 < w.toNat % 256) →
    decode w = .trap (w.extractLsb' 8 4) (w.extractLsb' 0 8)) ∧
  (∀ ig s, exec (.trap ig 0x20#8) s = exec .getc s ∧ exec (.trap ig 0x21#8) s = exec .out s ∧
    exec (.trap ig 0x22#8) s = exec .puts s ∧ exec (.trap ig 0x23#8) s = exec .inp s ∧
    exec (.trap ig 0x24#8) s = exec .putsp s ∧ exec (.trap ig 0x25#8) s = exec .halt s) ∧
  (∀ ig s, exec (.trap ig 0x21#8) s = .next { s with outq := s.outq ++ [(s.reg .r0).extractLsb' 0 8] })

/-- GETC, R112: it consumes one byte into R0, sets COND exactly when the open parameter says so (R11; log 16), and writes nothing
else; with no byte delivered it waits. -/
def Obligations.GetcTakesOneByte : Prop :=
  (∀ s b q, s.inq = b :: q → ∃ t, exec .getc s = .next t ∧
    t.reg .r0 = BitVec.ofNat 16 b.toNat ∧ (∀ r, r ≠ .r0 → t.reg r = s.reg r) ∧
    t.cond = (if Config.trapInSetsFlags then signFlag (BitVec.ofNat 16 b.toNat) else s.cond) ∧
    t = { s with regs := t.regs, cond := t.cond, inq := q }) ∧
  (∀ s : State, s.inq = [] → exec .getc s = .next { s with pending := some .getc })

/-- OUT, R113: it writes the low byte of R0; no register, COND or memory word changes. -/
def Obligations.OutWritesTheLowByte : Prop :=
  ∀ s : State, ∃ b : Byte, b.toNat = (s.reg .r0).toNat % 256 ∧ exec .out s = .next { s with outq := s.outq ++ [b] }

/-- PUTS on a zero-terminated string of ordinary storage (R114): it writes the low byte of each word in order, and no
register, COND, memory word or input byte changes. -/
def Obligations.PutsWritesTheString : Prop :=
  ∀ s cs, StringAt s (s.reg .r0) cs →
    exec .puts s = .next { s with outq := s.outq ++ cs.map fun c => BitVec.ofNat 8 c.toNat }

/-- IN, R115: prompt, one byte, its echo, R0, COND exactly when the open parameter says so (R11; log 16); with no byte
delivered it waits with the prompt already written. -/
def Obligations.InPromptsEchoesAndTakesOneByte : Prop :=
  (∀ s b q, s.inq = b :: q → ∃ t, exec .inp s = .next t ∧
    t.reg .r0 = BitVec.ofNat 16 b.toNat ∧ (∀ r, r ≠ .r0 → t.reg r = s.reg r) ∧
    t.cond = (if Config.trapInSetsFlags then signFlag (BitVec.ofNat 16 b.toNat) else s.cond) ∧
    t = { s with regs := t.regs, cond := t.cond, inq := q, outq := s.outq ++ Config.inPrompt ++ [b] }) ∧
  (∀ s : State, s.inq = [] → exec .inp s = .next { s with outq := s.outq ++ Config.inPrompt, pending := some .inByte })

/-- PUTSP on a zero-terminated packed string of ordinary storage (R116): for each word the low byte, then the high byte if
it is not zero; a zero high byte does not end it (spec/90_conflicts.md C4; log 19). -/
def Obligations.PutspWritesThePackedString : Prop :=
  ∀ s cs, StringAt s (s.reg .r0) cs →
    exec .putsp s = .next { s with
      outq := s.outq ++ cs.flatMap fun c =>
        BitVec.ofNat 8 c.toNat :: (if c.toNat / 256 = 0 then [] else [BitVec.ofNat 8 (c.toNat / 256)]) }

/-- HALT, R117: it writes HALT_MSG and ends the run in HALTED, as `halt()` does (R156); R0 to R7, PC, COND and memory keep
their values, and the next step executes nothing. -/
def Obligations.HaltEndsTheRun : Prop :=
  ∀ s : State, exec .halt s = .next { s with outq := s.outq ++ Config.haltMsg, run := .halted } ∧
    s.halt = { s with run := .halted } ∧
    step { s with outq := s.outq ++ Config.haltMsg, run := .halted } =
      .next { s with outq := s.outq ++ Config.haltMsg, run := .halted }

/-- PUTS and PUTSP are the loops of R114 and R116, turn by turn and without a bound on the turns: each word is read as a device
read (decision D6; log 6), a read that waits leaves the routine in progress at its address (log 12), a zero word ends it, any
other word's bytes are written, a zero high byte being left out and not ending PUTSP (spec/90_conflicts.md C4; log 19), and the
loop goes on at the next address, modulo 2^16. Both start at R0. -/
def Obligations.StringRoutinesAreTheLoopsOfTheSpec : Prop :=
  (∀ s : State, exec .puts s = .next (putsFrom (s.reg .r0) s) ∧ exec .putsp s = .next (putspFrom (s.reg .r0) s)) ∧
  (∀ a s, putsFrom a s =
    match memRead a s with
    | none => { s with pending := some (.puts a) }
    | some (w, s') =>
      if w = 0x0000#16 then s'
      else putsFrom (a + 1#16) { s' with outq := s'.outq ++ [w.extractLsb' 0 8] }) ∧
  (∀ a s, putspFrom a s =
    match memRead a s with
    | none => { s with pending := some (.putsp a) }
    | some (w, s') =>
      if w = 0x0000#16 then s'
      else putspFrom (a + 1#16)
        { s' with outq := s'.outq ++ [w.extractLsb' 0 8] ++
            (if w.extractLsb' 8 8 = 0#8 then [] else [w.extractLsb' 8 8]) })

/-- From every state PUTS and PUTSP either complete or wait at KBDR with no byte left (log 12); they never run out of reads
(log 23), and no register, COND, memory word, run state, fault or stop latch changes. R114 and R136 allow a string that never
ends: that it waits at KBDR here rests on the device reads of a string (decision D6; log 6) and on no byte coming within one
step (log 13). -/
def Obligations.StringRoutinesCompleteOrWait : Prop :=
  (∀ s : State, ∃ t, exec .puts s = .next t ∧ t = { s with inq := t.inq, outq := t.outq, pending := t.pending } ∧
    (t.pending = s.pending ∨ (t.pending = some (.puts kbdrAddr) ∧ t.inq = []))) ∧
  (∀ s : State, ∃ t, exec .putsp s = .next t ∧ t = { s with inq := t.inq, outq := t.outq, pending := t.pending } ∧
    (t.pending = s.pending ∨ (t.pending = some (.putsp kbdrAddr) ∧ t.inq = [])))

/-- A TRAP whose vector is not one of 0x20 to 0x25 is FATAL_BAD_TRAP before any routine effect (R118): the record and the run
state, and nothing else, change. -/
def Obligations.UnrecognisedVectorIsFatal : Prop :=
  ∀ (ig : BitVec 4) (v : BitVec 8) s, (v.toNat < 0x20 ∨ 0x25 < v.toNat) →
    exec (.trap ig v) s = .next { s with
      fault := some ⟨.badTrap, s.pc - 1#16, BitVec.ofNat 16 (0xF000 + 256 * ig.toNat + v.toNat)⟩, run := .faulted }

/-- RTI (R120) and the reserved opcode (R121) are fatal on every execution: their own effect is the record and FAULTED, and
nothing else changes. -/
def Obligations.UndefinedOpcodesAreFatal : Prop :=
  (∀ w : Word, w &&& 0xF000#16 = 0x8000#16 → decode w = .rti (w.extractLsb' 0 12)) ∧
  (∀ w : Word, w &&& 0xF000#16 = 0xD000#16 → decode w = .reserved (w.extractLsb' 0 12)) ∧
  (∀ (x : BitVec 12) s, exec (.rti x) s = .next { s with
    fault := some ⟨.rti, s.pc - 1#16, BitVec.ofNat 16 (0x8000 + x.toNat)⟩, run := .faulted }) ∧
  (∀ (x : BitVec 12) s, exec (.reserved x) s = .next { s with
    fault := some ⟨.reserved, s.pc - 1#16, BitVec.ofNat 16 (0xD000 + x.toNat)⟩, run := .faulted })

/-- A step that fetches a fatal word from ordinary storage records the address it was fetched from and that very word, and keeps
the incremented PC (spec/60_exceptions.md R130, R131, R133; codes: decision D18, log 11). -/
def Obligations.StepRecordsTheFatalInstruction : Prop :=
  (∀ s w c, Fetching s → ordinary s.pc → s.word s.pc = w → (decode w).fatal = some c →
    step s = .next { s with pc := s.pc + 1#16, fault := some ⟨c, s.pc, w⟩, run := .faulted }) ∧
  (∀ w : Word, ((decode w).fatal = some .rti ↔ w.toNat / 4096 = 8) ∧ ((decode w).fatal = some .reserved ↔ w.toNat / 4096 = 13) ∧
    ((decode w).fatal = some .badTrap ↔ w.toNat / 4096 = 15 ∧ (w.toNat % 256 < 0x20 ∨ 0x25 < w.toNat % 256))) ∧
  FatalCode.rti.number = 1 ∧ FatalCode.reserved.number = 2 ∧ FatalCode.badTrap.number = 3

/-! Memory and devices (spec/20_memory.md). -/

/-- A read of an address other than KBSR_ADDR and KBDR_ADDR gives `M[a]`, changes nothing and is idempotent (R45). -/
def Obligations.OrdinaryReadHasNoEffect : Prop :=
  ∀ a s, a ≠ kbsrAddr → a ≠ kbdrAddr → memRead a s = some (s.word a, s) ∧
    ∀ t, t.mem = s.mem → memRead a t = some (s.word a, t)

/-- A read of KBDR consumes the head of `inq`, zero-extended, and a second read gives the next byte; with no byte
delivered it waits (R44). -/
def Obligations.KeyboardDataReadConsumes : Prop :=
  (∀ s b q, s.inq = b :: q → ∃ w, memRead kbdrAddr s = some (w, { s with inq := q }) ∧ w.toNat = b.toNat) ∧
  (∀ s : State, s.inq = [] → memRead kbdrAddr s = none) ∧
  (∀ s b c q, s.inq = b :: c :: q → ∃ w x s', memRead kbdrAddr s = some (w, s') ∧
    memRead kbdrAddr s' = some (x, { s with inq := q }) ∧ w.toNat = b.toNat ∧ x.toNat = c.toNat)

/-- A read of KBSR is a poll: bit 15 says whether a byte is available, bits 14:0 read as zero (decision D3; log 4), nothing is
removed, and once ready it stays ready while bytes arrive (R43). -/
def Obligations.KeyboardStatusReadPolls : Prop :=
  (∀ s : State, ∃ w, memRead kbsrAddr s = some (w, s) ∧ (w.getLsbD 15 = true ↔ s.inq ≠ []) ∧ (∀ k, k < 15 → w.getLsbD k = false)) ∧
  (∀ (s : State) b, s.inq ≠ [] → ∃ w, memRead kbsrAddr s = some (w, s) ∧ memRead kbsrAddr (s.deliver b) = some (w, s.deliver b))

/-- A write to an ordinary address changes exactly `M[a]` (R46); on a canonical memory the word reads back and every other
word is as before. A write to KBSR or KBDR changes nothing (R47, decision D4; log 5). -/
def Obligations.OrdinaryWriteChangesOneWord : Prop :=
  (∀ s a v, Memory.wf s.mem = true → a ≠ kbsrAddr → a ≠ kbdrAddr →
    (memWrite a v s).word a = v ∧ (∀ b, b ≠ a → (memWrite a v s).word b = s.word b) ∧
    memWrite a v s = { s with mem := (memWrite a v s).mem } ∧ Memory.wf (memWrite a v s).mem = true) ∧
  (∀ s a v, (a = kbsrAddr ∨ a = kbdrAddr) → memWrite a v s = s)

/-- A store to the address of the next instruction is what the next step fetches and runs, for each of ST, STI and STR (R55,
decision D5; log 6). -/
def Obligations.StoreIsSeenByTheNextFetch : Prop :=
  ∀ i s t sr, Fetching s → Memory.wf s.mem = true → ordinary s.pc → i.storeSource = some sr →
    i.storeTarget s = some s.pc → exec i s = .next t →
    step t = exec (decode (s.reg sr)) { t with pc := s.pc + 1#16 }

/-- The memory frame of every instruction: a store changes no word but the one at the address its own meaning computes, and an
instruction that stores nothing changes no word at all (R58). -/
def Obligations.MemoryFrame : Prop :=
  (∀ i s t a, Memory.wf s.mem = true → exec i s = .next t → i.storeTarget s = some a →
    ∀ b, b ≠ a → t.word b = s.word b) ∧
  (∀ i s t, exec i s = .next t → i.storeTarget s = none → ∀ b, t.word b = s.word b)

/-- The register frame of every instruction: every general register but its destination is unchanged; R7 is the destination of
JSR and JSRR, R0 that of GETC and IN, and no TRAP writes R7 (R20, R110). -/
def Obligations.RegisterFrame : Prop :=
  ∀ i s t, exec i s = .next t → ∀ r, i.dest ≠ some r → t.reg r = s.reg r

/-- Only BR, JMP, RET, JSR and JSRR write PC after the fetch's increment (R22, R138). -/
def Obligations.ProgramCounterFrame : Prop :=
  ∀ i s t, exec i s = .next t → ¬ i.writesPc → t.pc = s.pc

/-- The console frame: a step only appends to `outq` and only takes from the head of `inq` (R31, R32), and no instruction but OUT,
PUTS, IN, PUTSP and HALT writes `outq`. -/
def Obligations.ConsoleFrame : Prop :=
  (∀ s t : State, step s = .next t → s.outq <+: t.outq ∧ t.inq <:+ s.inq) ∧
  (∀ i s t, exec i s = .next t → ¬ i.writesConsole → t.outq = s.outq)

/-- The stop latch (R33): no instruction reads or writes it, the host's request sets it, and the fetch unit reads it between
instructions, where it ends the run in HALTED before the fetch, PC kept (R135, decision D19; log 15). -/
def Obligations.NoInstructionTouchesTheStopLatch : Prop :=
  (∀ i s b, ∃ t, exec i s = .next t ∧ t.stop = s.stop ∧ exec i { s with stop := b } = .next { t with stop := b }) ∧
  (∀ s : State, s.run = .running → s.requestStop.stop = true) ∧
  (∀ s : State, s.run = .running → s.pending = none → s.stop = true → ∃ t, step s = .next t ∧ t.run = .halted ∧ t.pc = s.pc)

/-! Waiting (spec/10_state.md R31, spec/60_exceptions.md R136). -/

/-- A core that waits with no byte delivered and no stop requested answers its state again: "the core does not step
meanwhile" (R31; log 12). -/
def Obligations.WaitingCoreIsUnchanged : Prop :=
  ∀ s : State, s.Inv → s.pending ≠ none → s.stop = false → s.inq = [] → step s = .next s

/-- A wait is transparent: an instruction that waited, in its fetch or after it, and then got a byte ends as it would have if the byte had been there when it was
fetched (R31, R136; log 12). -/
def Obligations.WaitingIsTransparent : Prop :=
  ∀ s t b, Fetching s → s.inq = [] → step s = .next t → t.pending ≠ none → step (t.deliver b) = step (s.deliver b)

/-! The load port and the boot (spec/20_memory.md R57, spec/70_reset_and_hazards.md R150). -/

/-- `LoadImage`: the words land one per address from the origin and nothing else changes; an image past 0xFFFF is refused
(decision D21; log 21); an image's bytes are big-endian words, and a last word cut short is refused. -/
def Obligations.LoadImagePlacesTheWords : Prop :=
  (∀ origin ws s, Memory.wf s.mem = true → origin.toNat + ws.length ≤ 65536 →
    ∃ t, loadImage origin ws s = some t ∧ t = { s with mem := t.mem } ∧ Memory.wf t.mem = true ∧
      (∀ k w, ws[k]? = some w → t.word (origin + BitVec.ofNat 16 k) = w) ∧
      (∀ a : Word, (a.toNat < origin.toNat ∨ origin.toNat + ws.length ≤ a.toNat) → t.word a = s.word a)) ∧
  (∀ origin ws s, 65536 < origin.toNat + ws.length → loadImage origin ws s = none) ∧
  (∀ ws : List Word, imageWords (ws.flatMap fun w => [w.extractLsb' 8 8, w.extractLsb' 0 8]) = some ws) ∧
  (∀ bs : List Byte, bs.length % 2 = 1 → imageWords bs = none)

/-- Boot (R150): however many images are loaded, the run begins with every field but memory at its reset value, the empty queue,
the clear latch and no instruction in progress being the model's choice (log 20, log 12); with no image that is the reset state.
The last image's words stand, and every word outside it is as the images before it left it (R57). -/
def Obligations.BootLeavesTheResetState : Prop :=
  (∀ images t, boot images = some t → t = { State.reset with mem := t.mem } ∧ t.Inv) ∧
  boot [] = some State.reset ∧
  (∀ images origin ws t, boot (images ++ [(origin, ws)]) = some t →
    (∀ k w, ws[k]? = some w → t.word (origin + BitVec.ofNat 16 k) = w) ∧
    ∃ u, boot images = some u ∧
      ∀ a : Word, (a.toNat < origin.toNat ∨ origin.toNat + ws.length ≤ a.toNat) → t.word a = u.word a)

/-- How a run ends, as the host sees it (R146): status 0 after HALT, the stop status after a stop request, taken by a step or
during a wait (R136; log 15), the abort status after a fatal condition, and none while the core runs (log 18). -/
def Obligations.ExitStatusSaysHowTheRunEnded : Prop :=
  (∀ s t : State, s.run = .running → step s = .next t →
    (t.run = .running → exitStatus t = none) ∧
    (s.stop = true → (s.pending = none ∨ s.inq = []) → exitStatus t = some Config.stopExitStatus) ∧
    (s.stop = false → t.run = .halted → exitStatus t = some 0) ∧
    (t.run = .faulted → exitStatus t = some Config.abortExitStatus)) ∧
  (∀ s : State, s.run = .running → s.pending ≠ none → s.inq = [] →
    exitStatus s.requestStop = some Config.stopExitStatus)
end

