-- ==== Sys2Proof/Laws/PerInstr.lean ====
section
/-! SUPPORT. The per-instruction family `OpcodeField`: the word of every instruction carries its opcode in bits
15:12, and the opcode map reads it back (spec/30_encoding.md R61, R67). -/

namespace Sys2Proof.Laws

theorem opcode_ofBits_bits (o : Opcode) : Opcode.ofBits o.bits = o := by
  cases o <;> rfl

theorem reg_ofBits_bits (r : Reg) : Reg.ofBits r.bits = r := by
  cases r <;> rfl

theorem opcodeOf_append (o : BitVec 4) (x : BitVec 12) : opcodeOf (o ++ x) = Opcode.ofBits o := by
  have h : BitVec.extractLsb' 12 4 (o ++ x) = o := by
    ext i hi
    have h1 : (o ++ x).getLsbD (12 + i) = _ := BitVec.getLsbD_append
    rw [BitVec.getElem_extractLsb', h1, if_neg (by omega), Nat.add_sub_cancel_left, BitVec.getLsbD_eq_getElem hi]
  exact congrArg Opcode.ofBits h

/-- The opcode field of an instruction's word is its opcode's. -/
def OpcodeField.Statement (i : Instr) : Prop := opcodeOf (encode i) = i.opcode

theorem OpcodeField.of_encode (i : Instr) : opcodeOf (encode i) = i.opcode := by
  rw [encode, opcodeOf_append, opcode_ofBits_bits]

theorem OpcodeField.addReg (dr sr1 sr2 : Reg) : OpcodeField.Statement (.addReg dr sr1 sr2) := OpcodeField.of_encode _
theorem OpcodeField.addImm (dr sr1 : Reg) (imm5 : BitVec 5) : OpcodeField.Statement (.addImm dr sr1 imm5) := OpcodeField.of_encode _
theorem OpcodeField.andReg (dr sr1 sr2 : Reg) : OpcodeField.Statement (.andReg dr sr1 sr2) := OpcodeField.of_encode _
theorem OpcodeField.andImm (dr sr1 : Reg) (imm5 : BitVec 5) : OpcodeField.Statement (.andImm dr sr1 imm5) := OpcodeField.of_encode _
theorem OpcodeField.not (dr sr1 : Reg) : OpcodeField.Statement (.not dr sr1) := OpcodeField.of_encode _
theorem OpcodeField.br (n z p : Bool) (off9 : BitVec 9) : OpcodeField.Statement (.br n z p off9) := OpcodeField.of_encode _
theorem OpcodeField.jmp (base : Reg) : OpcodeField.Statement (.jmp base) := OpcodeField.of_encode _
theorem OpcodeField.ret : OpcodeField.Statement .ret := OpcodeField.of_encode _
theorem OpcodeField.jsr (off11 : BitVec 11) : OpcodeField.Statement (.jsr off11) := OpcodeField.of_encode _
theorem OpcodeField.jsrr (base : Reg) : OpcodeField.Statement (.jsrr base) := OpcodeField.of_encode _
theorem OpcodeField.ld (dr : Reg) (off9 : BitVec 9) : OpcodeField.Statement (.ld dr off9) := OpcodeField.of_encode _
theorem OpcodeField.ldi (dr : Reg) (off9 : BitVec 9) : OpcodeField.Statement (.ldi dr off9) := OpcodeField.of_encode _
theorem OpcodeField.ldr (dr base : Reg) (off6 : BitVec 6) : OpcodeField.Statement (.ldr dr base off6) := OpcodeField.of_encode _
theorem OpcodeField.lea (dr : Reg) (off9 : BitVec 9) : OpcodeField.Statement (.lea dr off9) := OpcodeField.of_encode _
theorem OpcodeField.st (sr : Reg) (off9 : BitVec 9) : OpcodeField.Statement (.st sr off9) := OpcodeField.of_encode _
theorem OpcodeField.sti (sr : Reg) (off9 : BitVec 9) : OpcodeField.Statement (.sti sr off9) := OpcodeField.of_encode _
theorem OpcodeField.str (sr base : Reg) (off6 : BitVec 6) : OpcodeField.Statement (.str sr base off6) := OpcodeField.of_encode _
theorem OpcodeField.trap (ignored : BitVec 4) (vect : BitVec 8) : OpcodeField.Statement (.trap ignored vect) := OpcodeField.of_encode _
theorem OpcodeField.getc : OpcodeField.Statement .getc := OpcodeField.of_encode _
theorem OpcodeField.out : OpcodeField.Statement .out := OpcodeField.of_encode _
theorem OpcodeField.puts : OpcodeField.Statement .puts := OpcodeField.of_encode _
theorem OpcodeField.inp : OpcodeField.Statement .inp := OpcodeField.of_encode _
theorem OpcodeField.putsp : OpcodeField.Statement .putsp := OpcodeField.of_encode _
theorem OpcodeField.halt : OpcodeField.Statement .halt := OpcodeField.of_encode _
theorem OpcodeField.rti (ignored : BitVec 12) : OpcodeField.Statement (.rti ignored) := OpcodeField.of_encode _
theorem OpcodeField.reserved (ignored : BitVec 12) : OpcodeField.Statement (.reserved ignored) := OpcodeField.of_encode _

end Sys2Proof.Laws
end

