-- ==== Sys2Proof/Laws/Encoding.lean ====
section
/-! SUPPORT. Fields of a word: what a mask and match fixes, and the fields of words put together from fields. -/

namespace Sys2Proof.Laws

/-- A word that matches a row of the opcode table has the row's value in every bit of the mask. -/
theorem bit_of_mask {w m v : Word} (h : w &&& m = v) (k : Nat) (hm : m.getLsbD k = true) : w.getLsbD k = v.getLsbD k := by
  have := congrArg (fun x => BitVec.getLsbD x k) h
  simpa [hm] using this

/-- A row whose mask has bits 15:12 fixes the opcode. -/
theorem opcodeOf_of_mask {w m v : Word} (h : w &&& m = v) (hm : m.extractLsb' 12 4 = 0xF#4) : opcodeOf w = opcodeOf v := by
  unfold opcodeOf
  congr 1
  have := congrArg (fun x => BitVec.extractLsb' 12 4 x) h
  simp only [BitVec.extractLsb'_and, hm] at this
  rw [← this]
  exact (BitVec.and_allOnes (x := BitVec.extractLsb' 12 4 w)).symm

theorem getLsbD_append {m n : Nat} (a : BitVec m) (b : BitVec n) (i : Nat) :
    (a ++ b).getLsbD i = if i < n then b.getLsbD i else a.getLsbD (i - n) :=
  BitVec.getLsbD_append

theorem extract_append_low {m n k s : Nat} (a : BitVec m) (b : BitVec n) (h : s + k ≤ n) :
    (a ++ b).extractLsb' s k = b.extractLsb' s k := by
  apply BitVec.eq_of_getLsbD_eq
  intro i hi
  simp only [BitVec.getLsbD_extractLsb', getLsbD_append, hi]
  rw [if_pos (by omega)]

theorem extract_append_high {m n k s : Nat} (a : BitVec m) (b : BitVec n) (h : n ≤ s) :
    (a ++ b).extractLsb' s k = a.extractLsb' (s - n) k := by
  apply BitVec.eq_of_getLsbD_eq
  intro i hi
  simp only [BitVec.getLsbD_extractLsb', getLsbD_append, hi]
  rw [if_neg (by omega), show s + i - n = s - n + i by omega]

theorem extract_all {n : Nat} (a : BitVec n) : a.extractLsb' 0 n = a := by
  apply BitVec.eq_of_getLsbD_eq
  intro i hi
  simp [hi]

theorem encode_bit (i : Instr) (k : Nat) (h : k < 12) : (encode i).getLsbD k = i.operandBits.getLsbD k :=
  (getLsbD_append (m := 4) (n := 12) _ _ k).trans (if_pos h)

theorem encode_field (i : Instr) (s k : Nat) (h : s + k ≤ 12) :
    (encode i).extractLsb' s k = i.operandBits.extractLsb' s k :=
  extract_append_low (m := 4) (n := 12) _ _ h

/-- A trap vector is one of the six recognised ones or none of them. -/
theorem vector_cases (v : BitVec 8) :
    (v = 0x20#8 ∨ v = 0x21#8 ∨ v = 0x22#8 ∨ v = 0x23#8 ∨ v = 0x24#8 ∨ v = 0x25#8) ∨
      (v.toNat < 0x20 ∨ 0x25 < v.toNat) := by
  simp only [← BitVec.toNat_inj, BitVec.toNat_ofNat]
  omega

theorem decodeTrap_unrecognised (ig : BitVec 4) {v : BitVec 8} (h : v.toNat < 0x20 ∨ 0x25 < v.toNat) :
    decodeTrap ig v = .trap ig v := by
  unfold decodeTrap
  split <;> first | omega | rfl

theorem dispatchTrap_unrecognised (ig : BitVec 4) {v : BitVec 8} (s : Machine.State)
    (h : v.toNat < 0x20 ∨ 0x25 < v.toNat) : Machine.dispatchTrap ig v s = Machine.badTrap ig v s := by
  unfold Machine.dispatchTrap
  split <;> first | omega | rfl

end Sys2Proof.Laws
end

