-- ==== Sys2Proof/Laws/State.lean ====
section
/-! SUPPORT. One lemma per field per update of State, true by definition, so that no proof unfolds an update. -/

namespace Sys2Proof.Machine

/-! `State.setReg` -/

@[simp] theorem State.setReg_regs (s : State) (r : Reg) (v : Word) : (s.setReg r v).regs = s.regs.set r v := rfl
@[simp] theorem State.setReg_pc (s : State) (r : Reg) (v : Word) : (s.setReg r v).pc = s.pc := rfl
@[simp] theorem State.setReg_cond (s : State) (r : Reg) (v : Word) : (s.setReg r v).cond = s.cond := rfl
@[simp] theorem State.setReg_mem (s : State) (r : Reg) (v : Word) : (s.setReg r v).mem = s.mem := rfl
@[simp] theorem State.setReg_run (s : State) (r : Reg) (v : Word) : (s.setReg r v).run = s.run := rfl
@[simp] theorem State.setReg_fault (s : State) (r : Reg) (v : Word) : (s.setReg r v).fault = s.fault := rfl
@[simp] theorem State.setReg_inq (s : State) (r : Reg) (v : Word) : (s.setReg r v).inq = s.inq := rfl
@[simp] theorem State.setReg_outq (s : State) (r : Reg) (v : Word) : (s.setReg r v).outq = s.outq := rfl
@[simp] theorem State.setReg_stop (s : State) (r : Reg) (v : Word) : (s.setReg r v).stop = s.stop := rfl
@[simp] theorem State.setReg_pending (s : State) (r : Reg) (v : Word) : (s.setReg r v).pending = s.pending := rfl
@[simp] theorem State.setReg_word (s : State) (r : Reg) (v : Word) (x : Word) : (s.setReg r v).word x = s.word x := rfl

/-! `State.setPc` -/

@[simp] theorem State.setPc_regs (s : State) (v : Word) : (s.setPc v).regs = s.regs := rfl
@[simp] theorem State.setPc_pc (s : State) (v : Word) : (s.setPc v).pc = v := rfl
@[simp] theorem State.setPc_cond (s : State) (v : Word) : (s.setPc v).cond = s.cond := rfl
@[simp] theorem State.setPc_mem (s : State) (v : Word) : (s.setPc v).mem = s.mem := rfl
@[simp] theorem State.setPc_run (s : State) (v : Word) : (s.setPc v).run = s.run := rfl
@[simp] theorem State.setPc_fault (s : State) (v : Word) : (s.setPc v).fault = s.fault := rfl
@[simp] theorem State.setPc_inq (s : State) (v : Word) : (s.setPc v).inq = s.inq := rfl
@[simp] theorem State.setPc_outq (s : State) (v : Word) : (s.setPc v).outq = s.outq := rfl
@[simp] theorem State.setPc_stop (s : State) (v : Word) : (s.setPc v).stop = s.stop := rfl
@[simp] theorem State.setPc_pending (s : State) (v : Word) : (s.setPc v).pending = s.pending := rfl
@[simp] theorem State.setPc_reg (s : State) (v : Word) (q : Reg) : (s.setPc v).reg q = s.reg q := rfl
@[simp] theorem State.setPc_word (s : State) (v : Word) (x : Word) : (s.setPc v).word x = s.word x := rfl

/-! `State.setCond` -/

@[simp] theorem State.setCond_regs (s : State) (c : Cond) : (s.setCond c).regs = s.regs := rfl
@[simp] theorem State.setCond_pc (s : State) (c : Cond) : (s.setCond c).pc = s.pc := rfl
@[simp] theorem State.setCond_cond (s : State) (c : Cond) : (s.setCond c).cond = c := rfl
@[simp] theorem State.setCond_mem (s : State) (c : Cond) : (s.setCond c).mem = s.mem := rfl
@[simp] theorem State.setCond_run (s : State) (c : Cond) : (s.setCond c).run = s.run := rfl
@[simp] theorem State.setCond_fault (s : State) (c : Cond) : (s.setCond c).fault = s.fault := rfl
@[simp] theorem State.setCond_inq (s : State) (c : Cond) : (s.setCond c).inq = s.inq := rfl
@[simp] theorem State.setCond_outq (s : State) (c : Cond) : (s.setCond c).outq = s.outq := rfl
@[simp] theorem State.setCond_stop (s : State) (c : Cond) : (s.setCond c).stop = s.stop := rfl
@[simp] theorem State.setCond_pending (s : State) (c : Cond) : (s.setCond c).pending = s.pending := rfl
@[simp] theorem State.setCond_reg (s : State) (c : Cond) (q : Reg) : (s.setCond c).reg q = s.reg q := rfl
@[simp] theorem State.setCond_word (s : State) (c : Cond) (x : Word) : (s.setCond c).word x = s.word x := rfl

/-! `State.setMem` -/

@[simp] theorem State.setMem_regs (s : State) (m : Memory) : (s.setMem m).regs = s.regs := rfl
@[simp] theorem State.setMem_pc (s : State) (m : Memory) : (s.setMem m).pc = s.pc := rfl
@[simp] theorem State.setMem_cond (s : State) (m : Memory) : (s.setMem m).cond = s.cond := rfl
@[simp] theorem State.setMem_mem (s : State) (m : Memory) : (s.setMem m).mem = m := rfl
@[simp] theorem State.setMem_run (s : State) (m : Memory) : (s.setMem m).run = s.run := rfl
@[simp] theorem State.setMem_fault (s : State) (m : Memory) : (s.setMem m).fault = s.fault := rfl
@[simp] theorem State.setMem_inq (s : State) (m : Memory) : (s.setMem m).inq = s.inq := rfl
@[simp] theorem State.setMem_outq (s : State) (m : Memory) : (s.setMem m).outq = s.outq := rfl
@[simp] theorem State.setMem_stop (s : State) (m : Memory) : (s.setMem m).stop = s.stop := rfl
@[simp] theorem State.setMem_pending (s : State) (m : Memory) : (s.setMem m).pending = s.pending := rfl
@[simp] theorem State.setMem_reg (s : State) (m : Memory) (q : Reg) : (s.setMem m).reg q = s.reg q := rfl

/-! `State.setInq` -/

@[simp] theorem State.setInq_regs (s : State) (l : List Byte) : (s.setInq l).regs = s.regs := rfl
@[simp] theorem State.setInq_pc (s : State) (l : List Byte) : (s.setInq l).pc = s.pc := rfl
@[simp] theorem State.setInq_cond (s : State) (l : List Byte) : (s.setInq l).cond = s.cond := rfl
@[simp] theorem State.setInq_mem (s : State) (l : List Byte) : (s.setInq l).mem = s.mem := rfl
@[simp] theorem State.setInq_run (s : State) (l : List Byte) : (s.setInq l).run = s.run := rfl
@[simp] theorem State.setInq_fault (s : State) (l : List Byte) : (s.setInq l).fault = s.fault := rfl
@[simp] theorem State.setInq_inq (s : State) (l : List Byte) : (s.setInq l).inq = l := rfl
@[simp] theorem State.setInq_outq (s : State) (l : List Byte) : (s.setInq l).outq = s.outq := rfl
@[simp] theorem State.setInq_stop (s : State) (l : List Byte) : (s.setInq l).stop = s.stop := rfl
@[simp] theorem State.setInq_pending (s : State) (l : List Byte) : (s.setInq l).pending = s.pending := rfl
@[simp] theorem State.setInq_reg (s : State) (l : List Byte) (q : Reg) : (s.setInq l).reg q = s.reg q := rfl
@[simp] theorem State.setInq_word (s : State) (l : List Byte) (x : Word) : (s.setInq l).word x = s.word x := rfl

/-! `State.setPending` -/

@[simp] theorem State.setPending_regs (s : State) (p : Option Pending) : (s.setPending p).regs = s.regs := rfl
@[simp] theorem State.setPending_pc (s : State) (p : Option Pending) : (s.setPending p).pc = s.pc := rfl
@[simp] theorem State.setPending_cond (s : State) (p : Option Pending) : (s.setPending p).cond = s.cond := rfl
@[simp] theorem State.setPending_mem (s : State) (p : Option Pending) : (s.setPending p).mem = s.mem := rfl
@[simp] theorem State.setPending_run (s : State) (p : Option Pending) : (s.setPending p).run = s.run := rfl
@[simp] theorem State.setPending_fault (s : State) (p : Option Pending) : (s.setPending p).fault = s.fault := rfl
@[simp] theorem State.setPending_inq (s : State) (p : Option Pending) : (s.setPending p).inq = s.inq := rfl
@[simp] theorem State.setPending_outq (s : State) (p : Option Pending) : (s.setPending p).outq = s.outq := rfl
@[simp] theorem State.setPending_stop (s : State) (p : Option Pending) : (s.setPending p).stop = s.stop := rfl
@[simp] theorem State.setPending_pending (s : State) (p : Option Pending) : (s.setPending p).pending = p := rfl
@[simp] theorem State.setPending_reg (s : State) (p : Option Pending) (q : Reg) : (s.setPending p).reg q = s.reg q := rfl
@[simp] theorem State.setPending_word (s : State) (p : Option Pending) (x : Word) : (s.setPending p).word x = s.word x := rfl

/-! `State.setWord` -/

@[simp] theorem State.setWord_regs (s : State) (a v : Word) : (s.setWord a v).regs = s.regs := rfl
@[simp] theorem State.setWord_pc (s : State) (a v : Word) : (s.setWord a v).pc = s.pc := rfl
@[simp] theorem State.setWord_cond (s : State) (a v : Word) : (s.setWord a v).cond = s.cond := rfl
@[simp] theorem State.setWord_mem (s : State) (a v : Word) : (s.setWord a v).mem = Memory.write s.mem a.toNat v := rfl
@[simp] theorem State.setWord_run (s : State) (a v : Word) : (s.setWord a v).run = s.run := rfl
@[simp] theorem State.setWord_fault (s : State) (a v : Word) : (s.setWord a v).fault = s.fault := rfl
@[simp] theorem State.setWord_inq (s : State) (a v : Word) : (s.setWord a v).inq = s.inq := rfl
@[simp] theorem State.setWord_outq (s : State) (a v : Word) : (s.setWord a v).outq = s.outq := rfl
@[simp] theorem State.setWord_stop (s : State) (a v : Word) : (s.setWord a v).stop = s.stop := rfl
@[simp] theorem State.setWord_pending (s : State) (a v : Word) : (s.setWord a v).pending = s.pending := rfl
@[simp] theorem State.setWord_reg (s : State) (a v : Word) (q : Reg) : (s.setWord a v).reg q = s.reg q := rfl

/-! `State.emit` -/

@[simp] theorem State.emit_regs (s : State) (bs : List Byte) : (s.emit bs).regs = s.regs := rfl
@[simp] theorem State.emit_pc (s : State) (bs : List Byte) : (s.emit bs).pc = s.pc := rfl
@[simp] theorem State.emit_cond (s : State) (bs : List Byte) : (s.emit bs).cond = s.cond := rfl
@[simp] theorem State.emit_mem (s : State) (bs : List Byte) : (s.emit bs).mem = s.mem := rfl
@[simp] theorem State.emit_run (s : State) (bs : List Byte) : (s.emit bs).run = s.run := rfl
@[simp] theorem State.emit_fault (s : State) (bs : List Byte) : (s.emit bs).fault = s.fault := rfl
@[simp] theorem State.emit_inq (s : State) (bs : List Byte) : (s.emit bs).inq = s.inq := rfl
@[simp] theorem State.emit_outq (s : State) (bs : List Byte) : (s.emit bs).outq = s.outq ++ bs := rfl
@[simp] theorem State.emit_stop (s : State) (bs : List Byte) : (s.emit bs).stop = s.stop := rfl
@[simp] theorem State.emit_pending (s : State) (bs : List Byte) : (s.emit bs).pending = s.pending := rfl
@[simp] theorem State.emit_reg (s : State) (bs : List Byte) (q : Reg) : (s.emit bs).reg q = s.reg q := rfl
@[simp] theorem State.emit_word (s : State) (bs : List Byte) (x : Word) : (s.emit bs).word x = s.word x := rfl

/-! `State.wait` -/

@[simp] theorem State.wait_regs (s : State) (p : Pending) : (s.wait p).regs = s.regs := rfl
@[simp] theorem State.wait_pc (s : State) (p : Pending) : (s.wait p).pc = s.pc := rfl
@[simp] theorem State.wait_cond (s : State) (p : Pending) : (s.wait p).cond = s.cond := rfl
@[simp] theorem State.wait_mem (s : State) (p : Pending) : (s.wait p).mem = s.mem := rfl
@[simp] theorem State.wait_run (s : State) (p : Pending) : (s.wait p).run = s.run := rfl
@[simp] theorem State.wait_fault (s : State) (p : Pending) : (s.wait p).fault = s.fault := rfl
@[simp] theorem State.wait_inq (s : State) (p : Pending) : (s.wait p).inq = s.inq := rfl
@[simp] theorem State.wait_outq (s : State) (p : Pending) : (s.wait p).outq = s.outq := rfl
@[simp] theorem State.wait_stop (s : State) (p : Pending) : (s.wait p).stop = s.stop := rfl
@[simp] theorem State.wait_pending (s : State) (p : Pending) : (s.wait p).pending = some p := rfl
@[simp] theorem State.wait_reg (s : State) (p : Pending) (q : Reg) : (s.wait p).reg q = s.reg q := rfl
@[simp] theorem State.wait_word (s : State) (p : Pending) (x : Word) : (s.wait p).word x = s.word x := rfl

/-! `State.halt` -/

@[simp] theorem State.halt_regs (s : State) : (s.halt).regs = s.regs := rfl
@[simp] theorem State.halt_pc (s : State) : (s.halt).pc = s.pc := rfl
@[simp] theorem State.halt_cond (s : State) : (s.halt).cond = s.cond := rfl
@[simp] theorem State.halt_mem (s : State) : (s.halt).mem = s.mem := rfl
@[simp] theorem State.halt_run (s : State) : (s.halt).run = .halted := rfl
@[simp] theorem State.halt_fault (s : State) : (s.halt).fault = s.fault := rfl
@[simp] theorem State.halt_inq (s : State) : (s.halt).inq = s.inq := rfl
@[simp] theorem State.halt_outq (s : State) : (s.halt).outq = s.outq := rfl
@[simp] theorem State.halt_stop (s : State) : (s.halt).stop = s.stop := rfl
@[simp] theorem State.halt_pending (s : State) : (s.halt).pending = s.pending := rfl
@[simp] theorem State.halt_reg (s : State) (q : Reg) : (s.halt).reg q = s.reg q := rfl
@[simp] theorem State.halt_word (s : State) (x : Word) : (s.halt).word x = s.word x := rfl

/-! `State.stopNow` -/

@[simp] theorem State.stopNow_regs (s : State) : (s.stopNow).regs = s.regs := rfl
@[simp] theorem State.stopNow_pc (s : State) : (s.stopNow).pc = s.pc := rfl
@[simp] theorem State.stopNow_cond (s : State) : (s.stopNow).cond = s.cond := rfl
@[simp] theorem State.stopNow_mem (s : State) : (s.stopNow).mem = s.mem := rfl
@[simp] theorem State.stopNow_run (s : State) : (s.stopNow).run = .halted := rfl
@[simp] theorem State.stopNow_fault (s : State) : (s.stopNow).fault = s.fault := rfl
@[simp] theorem State.stopNow_inq (s : State) : (s.stopNow).inq = s.inq := rfl
@[simp] theorem State.stopNow_outq (s : State) : (s.stopNow).outq = s.outq := rfl
@[simp] theorem State.stopNow_stop (s : State) : (s.stopNow).stop = s.stop := rfl
@[simp] theorem State.stopNow_pending (s : State) : (s.stopNow).pending = none := rfl
@[simp] theorem State.stopNow_reg (s : State) (q : Reg) : (s.stopNow).reg q = s.reg q := rfl
@[simp] theorem State.stopNow_word (s : State) (x : Word) : (s.stopNow).word x = s.word x := rfl

/-! `State.raiseFatal` -/

@[simp] theorem State.raiseFatal_regs (s : State) (c : FatalCode) (w : Word) : (s.raiseFatal c w).regs = s.regs := rfl
@[simp] theorem State.raiseFatal_pc (s : State) (c : FatalCode) (w : Word) : (s.raiseFatal c w).pc = s.pc := rfl
@[simp] theorem State.raiseFatal_cond (s : State) (c : FatalCode) (w : Word) : (s.raiseFatal c w).cond = s.cond := rfl
@[simp] theorem State.raiseFatal_mem (s : State) (c : FatalCode) (w : Word) : (s.raiseFatal c w).mem = s.mem := rfl
@[simp] theorem State.raiseFatal_run (s : State) (c : FatalCode) (w : Word) : (s.raiseFatal c w).run = .faulted := rfl
@[simp] theorem State.raiseFatal_fault (s : State) (c : FatalCode) (w : Word) : (s.raiseFatal c w).fault = some ⟨c, s.pc - 1#16, w⟩ := rfl
@[simp] theorem State.raiseFatal_inq (s : State) (c : FatalCode) (w : Word) : (s.raiseFatal c w).inq = s.inq := rfl
@[simp] theorem State.raiseFatal_outq (s : State) (c : FatalCode) (w : Word) : (s.raiseFatal c w).outq = s.outq := rfl
@[simp] theorem State.raiseFatal_stop (s : State) (c : FatalCode) (w : Word) : (s.raiseFatal c w).stop = s.stop := rfl
@[simp] theorem State.raiseFatal_pending (s : State) (c : FatalCode) (w : Word) : (s.raiseFatal c w).pending = s.pending := rfl
@[simp] theorem State.raiseFatal_reg (s : State) (c : FatalCode) (w : Word) (q : Reg) : (s.raiseFatal c w).reg q = s.reg q := rfl
@[simp] theorem State.raiseFatal_word (s : State) (c : FatalCode) (w : Word) (x : Word) : (s.raiseFatal c w).word x = s.word x := rfl

/-! `State.setcc` -/

@[simp] theorem State.setcc_regs (s : State) (v : Word) : (s.setcc v).regs = s.regs := rfl
@[simp] theorem State.setcc_pc (s : State) (v : Word) : (s.setcc v).pc = s.pc := rfl
@[simp] theorem State.setcc_cond (s : State) (v : Word) : (s.setcc v).cond = condOf v := rfl
@[simp] theorem State.setcc_mem (s : State) (v : Word) : (s.setcc v).mem = s.mem := rfl
@[simp] theorem State.setcc_run (s : State) (v : Word) : (s.setcc v).run = s.run := rfl
@[simp] theorem State.setcc_fault (s : State) (v : Word) : (s.setcc v).fault = s.fault := rfl
@[simp] theorem State.setcc_inq (s : State) (v : Word) : (s.setcc v).inq = s.inq := rfl
@[simp] theorem State.setcc_outq (s : State) (v : Word) : (s.setcc v).outq = s.outq := rfl
@[simp] theorem State.setcc_stop (s : State) (v : Word) : (s.setcc v).stop = s.stop := rfl
@[simp] theorem State.setcc_pending (s : State) (v : Word) : (s.setcc v).pending = s.pending := rfl
@[simp] theorem State.setcc_reg (s : State) (v : Word) (q : Reg) : (s.setcc v).reg q = s.reg q := rfl
@[simp] theorem State.setcc_word (s : State) (v : Word) (x : Word) : (s.setcc v).word x = s.word x := rfl

/-! `State.result` -/

@[simp] theorem State.result_regs (s : State) (dr : Reg) (v : Word) : (s.result dr v).regs = s.regs.set dr v := rfl
@[simp] theorem State.result_pc (s : State) (dr : Reg) (v : Word) : (s.result dr v).pc = s.pc := rfl
@[simp] theorem State.result_cond (s : State) (dr : Reg) (v : Word) : (s.result dr v).cond = condOf v := rfl
@[simp] theorem State.result_mem (s : State) (dr : Reg) (v : Word) : (s.result dr v).mem = s.mem := rfl
@[simp] theorem State.result_run (s : State) (dr : Reg) (v : Word) : (s.result dr v).run = s.run := rfl
@[simp] theorem State.result_fault (s : State) (dr : Reg) (v : Word) : (s.result dr v).fault = s.fault := rfl
@[simp] theorem State.result_inq (s : State) (dr : Reg) (v : Word) : (s.result dr v).inq = s.inq := rfl
@[simp] theorem State.result_outq (s : State) (dr : Reg) (v : Word) : (s.result dr v).outq = s.outq := rfl
@[simp] theorem State.result_stop (s : State) (dr : Reg) (v : Word) : (s.result dr v).stop = s.stop := rfl
@[simp] theorem State.result_pending (s : State) (dr : Reg) (v : Word) : (s.result dr v).pending = s.pending := rfl
@[simp] theorem State.result_word (s : State) (dr : Reg) (v : Word) (x : Word) : (s.result dr v).word x = s.word x := rfl

/-! `State.takeByte` -/

@[simp] theorem State.takeByte_regs (s : State) (b : Byte) : (s.takeByte b).regs = s.regs.set .r0 (zext8 b) := rfl
@[simp] theorem State.takeByte_pc (s : State) (b : Byte) : (s.takeByte b).pc = s.pc := rfl
@[simp] theorem State.takeByte_cond (s : State) (b : Byte) : (s.takeByte b).cond = if Config.trapInSetsFlags then condOf (zext8 b) else s.cond := rfl
@[simp] theorem State.takeByte_mem (s : State) (b : Byte) : (s.takeByte b).mem = s.mem := rfl
@[simp] theorem State.takeByte_run (s : State) (b : Byte) : (s.takeByte b).run = s.run := rfl
@[simp] theorem State.takeByte_fault (s : State) (b : Byte) : (s.takeByte b).fault = s.fault := rfl
@[simp] theorem State.takeByte_inq (s : State) (b : Byte) : (s.takeByte b).inq = s.inq := rfl
@[simp] theorem State.takeByte_outq (s : State) (b : Byte) : (s.takeByte b).outq = s.outq := rfl
@[simp] theorem State.takeByte_stop (s : State) (b : Byte) : (s.takeByte b).stop = s.stop := rfl
@[simp] theorem State.takeByte_pending (s : State) (b : Byte) : (s.takeByte b).pending = s.pending := rfl
@[simp] theorem State.takeByte_word (s : State) (b : Byte) (x : Word) : (s.takeByte b).word x = s.word x := rfl

/-! `State.link` -/

@[simp] theorem State.link_regs (s : State) : (s.link).regs = s.regs.set .r7 s.pc := rfl
@[simp] theorem State.link_pc (s : State) : (s.link).pc = s.pc := rfl
@[simp] theorem State.link_cond (s : State) : (s.link).cond = s.cond := rfl
@[simp] theorem State.link_mem (s : State) : (s.link).mem = s.mem := rfl
@[simp] theorem State.link_run (s : State) : (s.link).run = s.run := rfl
@[simp] theorem State.link_fault (s : State) : (s.link).fault = s.fault := rfl
@[simp] theorem State.link_inq (s : State) : (s.link).inq = s.inq := rfl
@[simp] theorem State.link_outq (s : State) : (s.link).outq = s.outq := rfl
@[simp] theorem State.link_stop (s : State) : (s.link).stop = s.stop := rfl
@[simp] theorem State.link_pending (s : State) : (s.link).pending = s.pending := rfl
@[simp] theorem State.link_word (s : State) (x : Word) : (s.link).word x = s.word x := rfl

/-! `State.deliver` -/

@[simp] theorem State.deliver_regs (s : State) (b : Byte) : (s.deliver b).regs = s.regs := rfl
@[simp] theorem State.deliver_pc (s : State) (b : Byte) : (s.deliver b).pc = s.pc := rfl
@[simp] theorem State.deliver_cond (s : State) (b : Byte) : (s.deliver b).cond = s.cond := rfl
@[simp] theorem State.deliver_mem (s : State) (b : Byte) : (s.deliver b).mem = s.mem := rfl
@[simp] theorem State.deliver_run (s : State) (b : Byte) : (s.deliver b).run = s.run := rfl
@[simp] theorem State.deliver_fault (s : State) (b : Byte) : (s.deliver b).fault = s.fault := rfl
@[simp] theorem State.deliver_inq (s : State) (b : Byte) : (s.deliver b).inq = s.inq ++ [b] := rfl
@[simp] theorem State.deliver_outq (s : State) (b : Byte) : (s.deliver b).outq = s.outq := rfl
@[simp] theorem State.deliver_stop (s : State) (b : Byte) : (s.deliver b).stop = s.stop := rfl
@[simp] theorem State.deliver_pending (s : State) (b : Byte) : (s.deliver b).pending = s.pending := rfl
@[simp] theorem State.deliver_reg (s : State) (b : Byte) (q : Reg) : (s.deliver b).reg q = s.reg q := rfl
@[simp] theorem State.deliver_word (s : State) (b : Byte) (x : Word) : (s.deliver b).word x = s.word x := rfl

end Sys2Proof.Machine
end

