-- ==== Sys2Proof/Laws/Memory.lean ====
section
/-! SUPPORT. The register file and the memory list: read after write, the canonical form, and that it is canonical. -/

namespace Sys2Proof.Machine

@[simp] theorem RegFile.get_set_same (f : RegFile) (r : Reg) (v : Word) : (f.set r v).get r = v := by
  cases r <;> rfl

theorem RegFile.get_set_ne (f : RegFile) {r q : Reg} (v : Word) (h : q ≠ r) : (f.set r v).get q = f.get q := by
  cases r <;> cases q <;> first | rfl | exact absurd rfl h

@[simp] theorem State.setReg_reg_same (s : State) (r : Reg) (v : Word) : (s.setReg r v).reg r = v :=
  RegFile.get_set_same s.regs r v

theorem State.setReg_reg_ne (s : State) {r q : Reg} (v : Word) (h : q ≠ r) : (s.setReg r v).reg q = s.reg q :=
  RegFile.get_set_ne s.regs v h

@[simp] theorem State.result_reg_same (s : State) (r : Reg) (v : Word) : (s.result r v).reg r = v :=
  RegFile.get_set_same s.regs r v

theorem State.result_reg_ne (s : State) {r q : Reg} (v : Word) (h : q ≠ r) : (s.result r v).reg q = s.reg q :=
  RegFile.get_set_ne s.regs v h

/-- Two register files that agree on every register are equal. -/
theorem RegFile.ext_get {f g : RegFile} (h : ∀ r, f.get r = g.get r) : f = g := by
  have h0 := h .r0
  have h1 := h .r1
  have h2 := h .r2
  have h3 := h .r3
  have h4 := h .r4
  have h5 := h .r5
  have h6 := h .r6
  have h7 := h .r7
  cases f; cases g
  simp only [RegFile.get] at h0 h1 h2 h3 h4 h5 h6 h7
  simp [*]

/-! The canonical form. -/

@[simp] theorem Memory.wfFrom_nil (lo : Option Nat) : Memory.wfFrom lo [] = true := rfl

theorem Memory.wfFrom_cons {lo : Option Nat} {a : Nat} {v : Word} {m : Memory} :
    Memory.wfFrom lo ((a, v) :: m) = true ↔
      (∀ b ∈ lo, b < a) ∧ a < 65536 ∧ v ≠ 0#16 ∧ Memory.wfFrom (some a) m = true := by
  cases lo <;> simp [Memory.wfFrom, and_assoc]

/-- A list whose cells lie above `hi` also lies above anything smaller. -/
theorem Memory.wfFrom_mono {lo : Option Nat} {hi : Nat} (h : ∀ b ∈ lo, b ≤ hi) {m : Memory}
    (hm : Memory.wfFrom (some hi) m = true) : Memory.wfFrom lo m = true := by
  cases m with
  | nil => rfl
  | cons c m =>
    obtain ⟨a, v⟩ := c
    rw [Memory.wfFrom_cons] at hm ⊢
    refine ⟨fun b hb => ?_, hm.2⟩
    have := hm.1 hi rfl
    have := h b hb
    omega

theorem Memory.wf_of_wfFrom {lo : Option Nat} {m : Memory} (hm : Memory.wfFrom lo m = true) : Memory.wf m = true := by
  cases lo with
  | none => exact hm
  | some hi => exact Memory.wfFrom_mono (by simp) hm

/-- Below the first listed address a canonical memory reads 0x0000. -/
theorem Memory.read_of_le {hi a : Nat} {m : Memory} (hm : Memory.wfFrom (some hi) m = true) (h : a ≤ hi) :
    Memory.read m a = 0#16 := by
  cases m with
  | nil => rfl
  | cons c m =>
    obtain ⟨b, v⟩ := c
    have := (Memory.wfFrom_cons.mp hm).1 hi rfl
    rw [Memory.read, if_neg (by omega), if_pos (by omega)]

theorem Memory.wfFrom_cons' {lo : Option Nat} {a : Nat} (v : Word) {m : Memory} (hlo : ∀ b ∈ lo, b < a) (ha : a < 65536)
    (hm : Memory.wfFrom (some a) m = true) : Memory.wfFrom lo (Memory.cons a v m) = true := by
  unfold Memory.cons
  split
  · exact Memory.wfFrom_mono (fun b hb => Nat.le_of_lt (hlo b hb)) hm
  · exact Memory.wfFrom_cons.mpr ⟨hlo, ha, by assumption, hm⟩

/-- A write inside the address space keeps the canonical form. -/
theorem Memory.wfFrom_write {lo : Option Nat} {m : Memory} {a : Nat} (v : Word) (hlo : ∀ b ∈ lo, b < a) (ha : a < 65536)
    (hm : Memory.wfFrom lo m = true) : Memory.wfFrom lo (Memory.write m a v) = true := by
  induction m generalizing lo with
  | nil => exact Memory.wfFrom_cons' v hlo ha rfl
  | cons c m ih =>
    obtain ⟨b, u⟩ := c
    have h := Memory.wfFrom_cons.mp hm
    unfold Memory.write
    split
    · next hab => subst hab; exact Memory.wfFrom_cons' v hlo ha h.2.2.2
    · split
      · next hlt =>
        refine Memory.wfFrom_cons' v hlo ha (Memory.wfFrom_cons.mpr ⟨?_, h.2⟩)
        simpa using hlt
      · refine Memory.wfFrom_cons.mpr ⟨h.1, h.2.1, h.2.2.1, ih ?_ h.2.2.2⟩
        simp; omega

theorem Memory.wf_write {m : Memory} {a : Nat} (v : Word) (ha : a < 65536) (hm : Memory.wf m = true) :
    Memory.wf (Memory.write m a v) = true :=
  Memory.wfFrom_write v (by simp) ha hm

theorem Memory.read_cons {a : Nat} {v : Word} {m : Memory} (hm : Memory.wfFrom (some a) m = true) (b : Nat) :
    Memory.read (Memory.cons a v m) b = if b = a then v else if b < a then 0#16 else Memory.read m b := by
  unfold Memory.cons
  split
  · next hv =>
    subst hv
    split
    · next h => rw [Memory.read_of_le hm (by omega)]
    · split
      · exact Memory.read_of_le hm (by omega)
      · rfl
  · rfl

theorem Memory.read_write_from {lo : Option Nat} {m : Memory} (a : Nat) (v : Word) (hm : Memory.wfFrom lo m = true) (b : Nat) :
    Memory.read (Memory.write m a v) b = if b = a then v else Memory.read m b := by
  induction m generalizing lo with
  | nil =>
    rw [Memory.write, Memory.read_cons rfl]
    simp [Memory.read]
  | cons c m ih =>
    obtain ⟨x, u⟩ := c
    have h := Memory.wfFrom_cons.mp hm
    unfold Memory.write
    split
    · next hax =>
      subst hax
      rw [Memory.read_cons h.2.2.2]
      simp only [Memory.read]
      split <;> rfl
    · split
      · next hlt =>
        rw [Memory.read_cons (Memory.wfFrom_cons.mpr ⟨by simpa using hlt, h.2⟩)]
        split
        · rfl
        · split
          · rw [Memory.read, if_neg (by omega), if_pos (by omega)]
          · rfl
      · simp only [Memory.read]
        rw [ih h.2.2.2]
        by_cases hb : b = x
        · have : b ≠ a := by omega
          simp [hb]
          intro hxa
          omega
        · by_cases hlt : b < x
          · have : b ≠ a := by omega
            simp [hb, hlt, this]
          · simp [hb, hlt]

/-- Read after write on a canonical memory: the word written, and every other address as before. -/
theorem Memory.read_write {m : Memory} (hm : Memory.wf m = true) (a : Nat) (v : Word) (b : Nat) :
    Memory.read (Memory.write m a v) b = if b = a then v else Memory.read m b :=
  Memory.read_write_from a v hm b

theorem Memory.eq_of_read_from {lo lo' : Option Nat} {m m' : Memory} (hm : Memory.wfFrom lo m = true)
    (hm' : Memory.wfFrom lo' m' = true) (h : ∀ a, Memory.read m a = Memory.read m' a) : m = m' := by
  induction m generalizing lo lo' m' with
  | nil =>
    cases m' with
    | nil => rfl
    | cons c m' =>
      obtain ⟨x, u⟩ := c
      have h1 := Memory.wfFrom_cons.mp hm'
      have h2 := h x
      simp only [Memory.read, if_true] at h2
      exact absurd h2.symm h1.2.2.1
  | cons c m ih =>
    obtain ⟨x, u⟩ := c
    have hx := Memory.wfFrom_cons.mp hm
    cases m' with
    | nil =>
      have h2 := h x
      simp only [Memory.read, if_true] at h2
      exact absurd h2 hx.2.2.1
    | cons c' m' =>
      obtain ⟨y, u'⟩ := c'
      have hy := Memory.wfFrom_cons.mp hm'
      have hxy : x = y := by
        rcases Nat.lt_trichotomy x y with hlt | he | hlt
        · have h2 := h x
          simp only [Memory.read, if_true, if_neg (show ¬ x = y by omega), if_pos hlt] at h2
          exact absurd h2 hx.2.2.1
        · exact he
        · have h2 := h y
          simp only [Memory.read, if_true, if_neg (show ¬ y = x by omega), if_pos hlt] at h2
          exact absurd h2.symm hy.2.2.1
      subst hxy
      have hu := h x
      simp only [Memory.read, if_true] at hu
      subst hu
      have hrest : ∀ a, Memory.read m a = Memory.read m' a := by
        intro a
        by_cases hle : a ≤ x
        · rw [Memory.read_of_le hx.2.2.2 hle, Memory.read_of_le hy.2.2.2 hle]
        · have h2 := h a
          simpa only [Memory.read, if_neg (show ¬ a = x by omega), if_neg (show ¬ a < x by omega)] using h2
      rw [ih hx.2.2.2 hy.2.2.2 hrest]

/-- Canonical memories that read the same are the same list. -/
theorem Memory.eq_of_read {m m' : Memory} (hm : Memory.wf m = true) (hm' : Memory.wf m' = true)
    (h : ∀ a, Memory.read m a = Memory.read m' a) : m = m' :=
  Memory.eq_of_read_from hm hm' h

/-- The same law at word addresses. -/
theorem State.word_setWord {s : State} (hm : Memory.wf s.mem = true) (a v b : Word) :
    (s.setWord a v).word b = if b = a then v else s.word b := by
  show Memory.read (Memory.write s.mem a.toNat v) b.toNat = _
  rw [Memory.read_write hm]
  simp only [← BitVec.toNat_inj]
  rfl

theorem State.wf_setWord {s : State} (hm : Memory.wf s.mem = true) (a v : Word) :
    Memory.wf (s.setWord a v).mem = true :=
  Memory.wf_write v a.isLt hm

theorem loadWords_wf {ws : List Word} {a : Nat} {m : Memory} (h : a + ws.length ≤ 65536) (hm : Memory.wf m = true) :
    Memory.wf (loadWords a ws m) = true := by
  induction ws generalizing a m with
  | nil => exact hm
  | cons w ws ih =>
    simp only [List.length_cons] at h
    exact ih (by omega) (Memory.wf_write w (by omega) hm)

end Sys2Proof.Machine
end

