-- ==== Sys2Proof/Laws/Ops.lean ====
section
/-! SUPPORT. For each shared operation one lemma that says all it can do; proofs cite it instead of unfolding it. -/

namespace Sys2Proof.Machine

theorem consoleIn_none {s : State} : consoleIn s = none ↔ s.inq = [] := by
  unfold consoleIn
  split <;> simp_all

theorem consoleIn_some {s s' : State} {b : Byte} :
    consoleIn s = some (b, s') ↔ ∃ q, s.inq = b :: q ∧ s' = s.setInq q := by
  unfold consoleIn
  split
  · simp_all
  · next c q h =>
    constructor
    · intro h'
      cases h'
      exact ⟨q, h, rfl⟩
    · rintro ⟨q', h', rfl⟩
      rw [h] at h'
      cases h'
      rfl

/-- A read waits only at KBDR with no byte delivered (R44). -/
theorem memRead_none {a : Word} {s : State} : memRead a s = none ↔ a = kbdrAddr ∧ s.inq = [] := by
  unfold memRead
  split
  · next h => subst h; simp [show ¬ (kbsrAddr = kbdrAddr) by decide]
  · split
    · next h =>
      subst h
      split
      · next h' => simp [consoleIn_none.mp h']
      · next h' =>
        obtain ⟨q, hq, -⟩ := consoleIn_some.mp h'
        simp [hq]
    · next h => simp [h]

/-- A read that gives a word is KBSR's poll, KBDR's consuming read, or a read of ordinary storage; only KBDR's
changes the state, and only `inq` (R42 to R45). -/
theorem memRead_some {a w : Word} {s s' : State} (h : memRead a s = some (w, s')) :
    (a = kbsrAddr ∧ w = kbsrRead s ∧ s' = s) ∨
    (a = kbdrAddr ∧ ∃ b q, s.inq = b :: q ∧ w = zext8 b ∧ s' = s.setInq q) ∨
    (a ≠ kbsrAddr ∧ a ≠ kbdrAddr ∧ w = s.word a ∧ s' = s) := by
  unfold memRead at h
  split at h
  · cases h; exact .inl ⟨by assumption, rfl, rfl⟩
  · split at h
    · split at h
      · cases h
      · next h' =>
        cases h
        obtain ⟨q, hq, rfl⟩ := consoleIn_some.mp h'
        exact .inr (.inl ⟨by assumption, _, q, hq, rfl, rfl⟩)
    · cases h; exact .inr (.inr ⟨by assumption, by assumption, rfl, rfl⟩)

theorem memRead_ordinary {a : Word} {s : State} (h : ordinary a) : memRead a s = some (s.word a, s) := by
  unfold memRead
  rw [if_neg h.1, if_neg h.2]

theorem memRead_kbsr (s : State) : memRead kbsrAddr s = some (kbsrRead s, s) := rfl

theorem memRead_kbdr_nil {s : State} (h : s.inq = []) : memRead kbdrAddr s = none :=
  memRead_none.mpr ⟨rfl, h⟩

theorem memRead_kbdr_cons {s : State} {b : Byte} {q : List Byte} (h : s.inq = b :: q) :
    memRead kbdrAddr s = some (zext8 b, s.setInq q) := by
  simp [memRead, show ¬ (kbdrAddr = kbsrAddr) by decide, consoleIn, h]

/-- A read changes at most `inq`, and drops at most one byte from its head. -/
theorem memRead_state {a w : Word} {s s' : State} (h : memRead a s = some (w, s')) :
    s' = s ∨ (a = kbdrAddr ∧ ∃ b q, s.inq = b :: q ∧ s' = s.setInq q) := by
  rcases memRead_some h with ⟨-, -, rfl⟩ | ⟨ha, b, q, hq, -, rfl⟩ | ⟨-, -, -, rfl⟩
  · exact .inl rfl
  · exact .inr ⟨ha, b, q, hq, rfl⟩
  · exact .inl rfl

theorem memWrite_ordinary {a : Word} (h : ordinary a) (v : Word) (s : State) : memWrite a v s = s.setWord a v := by
  unfold memWrite
  rw [if_neg (not_or.mpr h)]

theorem memWrite_device {a : Word} (h : a = kbsrAddr ∨ a = kbdrAddr) (v : Word) (s : State) : memWrite a v s = s := by
  unfold memWrite
  rw [if_pos h]

/-- A write changes at most memory. -/
theorem memWrite_eq (a v : Word) (s : State) : memWrite a v s = s.setMem (memWrite a v s).mem := by
  unfold memWrite
  split <;> rfl

theorem memWrite_wf {s : State} (hm : Memory.wf s.mem = true) (a v : Word) : Memory.wf (memWrite a v s).mem = true := by
  unfold memWrite
  split
  · exact hm
  · exact State.wf_setWord hm a v

theorem memWrite_word {s : State} (hm : Memory.wf s.mem = true) (a v b : Word) :
    (memWrite a v s).word b = if b = a ∧ ordinary a then v else s.word b := by
  by_cases h : a = kbsrAddr ∨ a = kbdrAddr
  · rw [memWrite_device h]
    have : ¬ ordinary a := fun ho => h.elim ho.1 ho.2
    simp [this]
  · rw [memWrite_ordinary (not_or.mp h), State.word_setWord hm]
    by_cases hb : b = a
    · rw [if_pos hb, if_pos ⟨hb, not_or.mp h⟩]
    · rw [if_neg hb, if_neg fun h' => hb h'.1]

/-! Loads and indirect accesses: they write a result, or wait with nothing done since the last read. -/

theorem loadFrom_cases (dr : Reg) (a : Word) (s : State) :
    (memRead a s = none ∧ loadFrom dr a s = s.wait (.load dr)) ∨
    (∃ w s', memRead a s = some (w, s') ∧ loadFrom dr a s = s'.result dr w) := by
  unfold loadFrom
  split
  · exact .inl ⟨by assumption, rfl⟩
  · exact .inr ⟨_, _, by assumption, rfl⟩

theorem loadIndirect_cases (dr : Reg) (a : Word) (s : State) :
    (memRead a s = none ∧ loadIndirect dr a s = s.wait (.ldiPointer dr)) ∨
    (∃ ea s', memRead a s = some (ea, s') ∧ loadIndirect dr a s = loadFrom dr ea s') := by
  unfold loadIndirect
  split
  · exact .inl ⟨by assumption, rfl⟩
  · exact .inr ⟨_, _, by assumption, rfl⟩

theorem storeIndirect_cases (sr : Reg) (a : Word) (s : State) :
    (memRead a s = none ∧ storeIndirect sr a s = s.wait (.stiPointer sr)) ∨
    (∃ ea s', memRead a s = some (ea, s') ∧ storeIndirect sr a s = memWrite ea (s'.reg sr) s') := by
  unfold storeIndirect
  split
  · exact .inl ⟨by assumption, rfl⟩
  · exact .inr ⟨_, _, by assumption, rfl⟩

theorem getcRoutine_cases (s : State) :
    (s.inq = [] ∧ getcRoutine s = s.wait .getc) ∨
    (∃ b q, s.inq = b :: q ∧ getcRoutine s = (s.setInq q).takeByte b) := by
  unfold getcRoutine
  split
  · next h => exact .inl ⟨consoleIn_none.mp h, rfl⟩
  · next h =>
    obtain ⟨q, hq, rfl⟩ := consoleIn_some.mp h
    exact .inr ⟨_, q, hq, rfl⟩

theorem inByteRoutine_cases (s : State) :
    (s.inq = [] ∧ inByteRoutine s = s.wait .inByte) ∨
    (∃ b q, s.inq = b :: q ∧ inByteRoutine s = ((s.setInq q).emit [b]).takeByte b) := by
  unfold inByteRoutine
  split
  · next h => exact .inl ⟨consoleIn_none.mp h, rfl⟩
  · next h =>
    obtain ⟨q, hq, rfl⟩ := consoleIn_some.mp h
    exact .inr ⟨_, q, hq, rfl⟩

/-! The string loop of PUTS and PUTSP. -/

/-- One turn of the loop: it waits, ends at a zero word, or writes one word's bytes and goes on. -/
theorem stringLoop_succ (bytes : Word → List Byte) (left : Word → Pending) (fuel : Nat) (a : Word) (s : State) :
    (memRead a s = none ∧ stringLoop bytes left (fuel + 1) a s = s.wait (left a)) ∨
    (∃ s', memRead a s = some (0#16, s') ∧ stringLoop bytes left (fuel + 1) a s = s') ∨
    (∃ w s', memRead a s = some (w, s') ∧ w ≠ 0#16 ∧
      stringLoop bytes left (fuel + 1) a s = stringLoop bytes left fuel (a + 1#16) (s'.emit (bytes w))) := by
  cases h : memRead a s with
  | none => exact .inl ⟨rfl, by simp [stringLoop, h]⟩
  | some p =>
    obtain ⟨w, s'⟩ := p
    by_cases hw : w = 0#16
    · subst hw
      exact .inr (.inl ⟨s', rfl, by simp [stringLoop, h]⟩)
    · exact .inr (.inr ⟨w, s', rfl, hw, by simp [stringLoop, h, hw]⟩)

/-- The loop changes at most the two console queues and the instruction in progress. -/
theorem stringLoop_frame (bytes : Word → List Byte) (left : Word → Pending) (fuel : Nat) (a : Word) (s : State) :
    ∃ q o p, stringLoop bytes left fuel a s = { s with inq := q, outq := o, pending := p } := by
  induction fuel generalizing a s with
  | zero => exact ⟨s.inq, s.outq, some (left a), rfl⟩
  | succ fuel ih =>
    rcases stringLoop_succ bytes left fuel a s with ⟨-, h⟩ | ⟨s', hr, h⟩ | ⟨w, s', hr, -, h⟩
    · exact ⟨s.inq, s.outq, some (left a), h⟩
    · rw [h]
      rcases memRead_state hr with rfl | ⟨-, b, q, -, rfl⟩
      · exact ⟨s'.inq, s'.outq, s'.pending, rfl⟩
      · exact ⟨q, s.outq, s.pending, rfl⟩
    · rw [h]
      obtain ⟨q, o, p, hl⟩ := ih (a + 1#16) (s'.emit (bytes w))
      refine ⟨q, o, p, ?_⟩
      rw [hl]
      rcases memRead_state hr with rfl | ⟨-, b, q', -, rfl⟩ <;> rfl

/-! The end of a run. -/

theorem raiseFatal_eq (s : State) (c : FatalCode) (w : Word) :
    s.raiseFatal c w = { s with fault := some ⟨c, s.pc - 1#16, w⟩, run := .faulted } := rfl

theorem halt_eq (s : State) : s.halt = { s with run := .halted } := rfl

end Sys2Proof.Machine
end

