-- ==== Sys2Proof/Laws/Operands.lean ====
section
/-! SUPPORT. Operands, flags and reads in the terms of Safety: what a sign extension, an effective address, a flag and
a read are. -/

namespace Sys2Proof.Machine

theorem msb_eq_getLsbD {n : Nat} (f : BitVec n) (h : 1 ≤ n) : f.msb = f.getLsbD (n - 1) := by
  simp [BitVec.msb, BitVec.getMsbD]; omega

theorem sext_eq_signExtend {n : Nat} (f : BitVec n) (h1 : 1 ≤ n) (h2 : n ≤ 16) : sext f = f.signExtend 16 := by
  apply BitVec.eq_of_getLsbD_eq
  intro i hi
  rw [BitVec.getLsbD_signExtend, msb_eq_getLsbD f h1]
  unfold sext
  cases h : f.getLsbD (n - 1)
  · rw [if_neg (by simp)]
    by_cases hin : i < n
    · simp [hi, hin]
    · simp [hi, hin, BitVec.getLsbD_of_ge f i (by omega)]
  · rw [if_pos rfl]
    by_cases hin : i < n
    · simp [hi, hin]
    · rw [show (0xFFFF#16) = BitVec.allOnes 16 from rfl]
      simp only [BitVec.getLsbD_or, BitVec.getLsbD_shiftLeft, BitVec.getLsbD_allOnes, hi, hin]
      simp
      exact .inr (by omega)

theorem sext_eq_ofInt {n : Nat} (f : BitVec n) (h1 : 1 ≤ n) (h2 : n ≤ 16) : sext f = BitVec.ofInt 16 f.toInt :=
  sext_eq_signExtend f h1 h2

theorem pcRel_eq_pcPlus {n : Nat} (s : State) (f : BitVec n) (h1 : 1 ≤ n) (h2 : n ≤ 16) : pcRel s f = pcPlus s f := by
  unfold pcRel pcPlus
  rw [sext_eq_ofInt f h1 h2, BitVec.ofInt_add, BitVec.ofInt_natCast]
  simp

theorem baseRel_eq_regPlus (s : State) (base : Reg) (f : BitVec 6) : baseRel s base f = regPlus s base f := by
  unfold baseRel regPlus
  rw [sext_eq_ofInt f (by omega) (by omega), BitVec.ofInt_add, BitVec.ofInt_natCast]
  simp

theorem zext8_eq_ofNat (b : Byte) : zext8 b = BitVec.ofNat 16 b.toNat := by
  apply BitVec.eq_of_toNat_eq
  simp [zext8]

theorem condOf_eq_signFlag (v : Word) : condOf v = signFlag v := by
  have h0 : v = 0#16 ↔ v.toInt = 0 := by
    constructor
    · rintro rfl; rfl
    · intro h; exact BitVec.eq_of_toInt_eq (by simpa using h)
  have h1 : v.getLsbD 15 = true ↔ v.toInt < 0 := by
    rw [show v.getLsbD 15 = v.msb from by simp [BitVec.msb, BitVec.getMsbD], BitVec.msb_eq_toInt]
    simp
  unfold condOf signFlag
  simp only [h0, h1]

/-- The end of a result-producing instruction is a result in the sense of Safety. -/
theorem State.result_is (s : State) (dr : Reg) (r : Word) : ResultIs s (s.result dr r) dr r :=
  ⟨by simp, fun _ hq => State.result_reg_ne s r hq, condOf_eq_signFlag r, rfl⟩

/-- A write is a store in the sense of Safety. -/
theorem memWrite_is {s : State} (h : Memory.wf s.mem = true) (a v : Word) : StoreIs s (memWrite a v s) a v :=
  ⟨fun b => memWrite_word h a v b, memWrite_eq a v s⟩

/-- A read in the terms of Safety. -/
theorem memRead_eq (a : Word) (s : State) : memRead a s = (readValue s a).map fun w => (w, afterRead s a) := by
  unfold readValue afterRead
  by_cases h : a = kbdrAddr
  · subst h
    cases hq : s.inq with
    | nil => simp [memRead_kbdr_nil hq]
    | cons b q => simp [memRead_kbdr_cons hq, zext8_eq_ofNat, State.setInq]
  · by_cases h2 : a = kbsrAddr
    · subst h2
      simp [h, memRead_kbsr, kbsrRead]
    · simp [h, h2, memRead_ordinary ⟨h2, h⟩]

@[simp] theorem afterRead_pc (s : State) (a : Word) : (afterRead s a).pc = s.pc := by
  unfold afterRead; split <;> rfl

@[simp] theorem afterRead_reg (s : State) (a : Word) (r : Reg) : (afterRead s a).reg r = s.reg r := by
  unfold afterRead; split <;> rfl

@[simp] theorem afterRead_mem (s : State) (a : Word) : (afterRead s a).mem = s.mem := by
  unfold afterRead; split <;> rfl

/-- A byte taken into R0. -/
theorem State.takeByte_reg_r0 (s : State) (b : Byte) : (s.takeByte b).reg .r0 = zext8 b :=
  RegFile.get_set_same s.regs .r0 (zext8 b)

theorem State.takeByte_reg_ne (s : State) (b : Byte) {r : Reg} (h : r ≠ .r0) : (s.takeByte b).reg r = s.reg r :=
  RegFile.get_set_ne s.regs (zext8 b) h

end Sys2Proof.Machine
end

