-- ==== Sys2Proof/Laws/Step.lean ====
section
/-! SUPPORT. What one fetch and one step can do. -/

namespace Sys2Proof.Machine

theorem fetch_none {s : State} : fetch s = none ↔ s.pc = kbdrAddr ∧ s.inq = [] := by
  unfold fetch
  split
  · next h => simp [memRead_none.mp h]
  · next h =>
    have : ¬ memRead s.pc s = none := by simp [h]
    simpa [memRead_none] using this

theorem fetch_some {s t : State} {w : Word} :
    fetch s = some (w, t) ↔ ∃ s', memRead s.pc s = some (w, s') ∧ t = s'.setPc (s'.pc + 1#16) := by
  unfold fetch
  split
  · next h => simp [h]
  · next w' s' h =>
    constructor
    · intro h'
      cases h'
      exact ⟨s', h, rfl⟩
    · rintro ⟨s'', h', rfl⟩
      rw [h] at h'
      cases h'
      rfl

/-- An instruction is fetched and executed, or its fetch waits at KBDR with no byte delivered. -/
theorem fetchAndExecute_cases (s : State) :
    (s.pc = kbdrAddr ∧ s.inq = [] ∧ fetchAndExecute s = .next (s.wait .fetch)) ∨
    (∃ w s', memRead s.pc s = some (w, s') ∧ fetchAndExecute s = exec (decode w) (s'.setPc (s'.pc + 1#16))) := by
  cases h : fetch s with
  | none =>
    obtain ⟨hp, hq⟩ := fetch_none.mp h
    exact .inl ⟨hp, hq, by simp [fetchAndExecute, h]⟩
  | some r =>
    obtain ⟨w, t⟩ := r
    obtain ⟨s', hr, rfl⟩ := fetch_some.mp h
    exact .inr ⟨w, s', hr, by simp [fetchAndExecute, h]⟩

@[simp] theorem State.waiting_eq_true {s : State} : s.waiting = true ↔ s.pending ≠ none ∧ s.inq = [] := by
  simp [State.waiting, Option.isSome_iff_ne_none]

/-- Every step is one of four: the run has ended, a stop request is taken (between instructions or while the core waits with
no byte), an instruction in progress goes on, or an instruction is fetched. -/
theorem step_cases (s : State) :
    (s.run ≠ .running ∧ step s = .next s) ∨
    (s.run = .running ∧ s.stop = true ∧ (s.pending = none ∨ s.inq = []) ∧ step s = .next s.stopNow) ∨
    (∃ p, s.run = .running ∧ s.pending = some p ∧ (s.stop = false ∨ s.inq ≠ []) ∧
      step s = resume p (s.setPending none)) ∨
    (Fetching s ∧ step s = fetchAndExecute s) := by
  unfold Fetching
  cases hr : s.run
  case running =>
    cases hp : s.pending with
    | none =>
      cases hs : s.stop
      case true => exact .inr (.inl ⟨rfl, rfl, .inl rfl, by simp [step, hr, hs, hp]⟩)
      case false => exact .inr (.inr (.inr ⟨⟨rfl, rfl, rfl⟩, by simp [step, hr, hs, hp]⟩))
    | some p =>
      by_cases h : s.stop = true ∧ s.inq = []
      · exact .inr (.inl ⟨rfl, h.1, .inr h.2, by simp [step, hr, hp, h, State.waiting]⟩)
      · refine .inr (.inr (.inl ⟨p, rfl, rfl, ?_, by simp [step, hr, hp]; exact fun hs hq => absurd ⟨hs, hq⟩ h⟩))
        cases hs : s.stop
        case true => exact .inr fun hq => h ⟨hs, hq⟩
        case false => exact .inl rfl
  case halted => exact .inl ⟨by simp, by simp [step, hr]⟩
  case faulted => exact .inl ⟨by simp, by simp [step, hr]⟩

end Sys2Proof.Machine
end

