-- ==== Sys2Proof/Laws/Ports.lean ====
section
/-! SUPPORT. What a host event can do. -/

namespace Sys2Proof.Machine

/-- A stop request changes nothing after the end, ends the run of a core that waits with no byte, and else sets the latch. -/
theorem State.requestStop_cases (s : State) :
    (s.run ≠ .running ∧ s.requestStop = s) ∨
    (s.run = .running ∧ s.pending ≠ none ∧ s.inq = [] ∧
      s.requestStop = { s with stop := true, run := .halted, pending := none }) ∨
    (s.run = .running ∧ (s.pending = none ∨ s.inq ≠ []) ∧ s.requestStop = { s with stop := true }) := by
  unfold State.requestStop State.latchStop
  cases hr : s.run
  case running =>
    by_cases h : s.waiting = true
    · have hw := State.waiting_eq_true.mp h
      exact .inr (.inl ⟨rfl, hw.1, hw.2, by simp only [h]; rfl⟩)
    · refine .inr (.inr ⟨rfl, ?_, by simp only [h]; rfl⟩)
      rw [State.waiting_eq_true] at h
      tauto
  case halted => exact .inl ⟨by simp, rfl⟩
  case faulted => exact .inl ⟨by simp, rfl⟩

end Sys2Proof.Machine
end

