-- ==== Sys2Proof/Laws/StringLoop.lean ====
section
/-! SUPPORT. The reads a string routine is given are enough: more reads change nothing. The measure is the distance
to KBDR, where a byte is consumed or the routine waits, and the bytes left. -/

namespace Sys2Proof.Machine

/-- An upper bound on the reads the loop can make from `a` with `n` bytes delivered. -/
def readsBound (a : Word) (n : Nat) : Nat := (kbdrAddr - a).toNat + 65536 * n

theorem readsBound_next {a : Word} (n : Nat) (h : a ≠ kbdrAddr) : readsBound (a + 1#16) n + 1 = readsBound a n := by
  unfold readsBound
  have h1 : (kbdrAddr - (a + 1#16)).toNat + 1 = (kbdrAddr - a).toNat := by
    have h2 : a.toNat ≠ kbdrAddr.toNat := fun h' => h (BitVec.eq_of_toNat_eq h')
    simp only [kbdrAddr, BitVec.toNat_sub, BitVec.toNat_add, BitVec.toNat_ofNat] at *
    omega
  omega

theorem readsBound_kbdr (n : Nat) : readsBound (kbdrAddr + 1#16) n + 1 = readsBound kbdrAddr (n + 1) := by
  have h1 : (kbdrAddr - (kbdrAddr + 1#16)).toNat = 65535 := by decide
  have h2 : (kbdrAddr - kbdrAddr).toNat = 0 := by decide
  unfold readsBound
  omega

theorem readsBound_lt_stringFuel (a : Word) (s : State) : readsBound a s.inq.length < stringFuel s := by
  have := (kbdrAddr - a).isLt
  unfold readsBound stringFuel
  omega

/-- A read that gives a word leaves a smaller bound for the rest of the string. -/
theorem readsBound_read {a w : Word} {s s' : State} (h : memRead a s = some (w, s')) :
    readsBound (a + 1#16) s'.inq.length + 1 = readsBound a s.inq.length := by
  rcases memRead_some h with ⟨ha, -, rfl⟩ | ⟨rfl, b, q, hq, -, rfl⟩ | ⟨-, ha, -, rfl⟩
  · subst ha
    exact readsBound_next _ (by decide)
  · rw [hq]
    exact readsBound_kbdr q.length
  · exact readsBound_next _ ha

theorem stringLoop_one_more (bytes : Word → List Byte) (left : Word → Pending) {fuel : Nat} {a : Word} {s : State}
    (h : readsBound a s.inq.length < fuel) :
    stringLoop bytes left (fuel + 1) a s = stringLoop bytes left fuel a s := by
  induction fuel generalizing a s with
  | zero => omega
  | succ fuel ih =>
    cases hr : memRead a s with
    | none => simp only [stringLoop, hr]
    | some p =>
      obtain ⟨w, s'⟩ := p
      have hb := readsBound_read hr
      have ih' := @ih (a + 1#16) (s'.emit (bytes w)) (by simp only [State.emit_inq]; omega)
      conv_lhs => unfold stringLoop
      conv_rhs => unfold stringLoop
      simp only [hr, ih']

/-- Any two sufficient numbers of reads give the same result. -/
theorem stringLoop_enough (bytes : Word → List Byte) (left : Word → Pending) {fuel more : Nat} {a : Word} {s : State}
    (h : readsBound a s.inq.length < fuel) (hm : fuel ≤ more) :
    stringLoop bytes left more a s = stringLoop bytes left fuel a s := by
  induction more, hm using Nat.le_induction with
  | base => rfl
  | succ n hn ih => rw [stringLoop_one_more bytes left (by omega), ih]

end Sys2Proof.Machine
end

