-- ==== Sys2Proof/Tests/Slice0.lean ====
section
/-! SUPPORT. The session's own tests. Expected values are those of spec/95_test_vectors.md (W1 to W8, V1 to V9) or
the one-line example of the instruction's rule, never a run of this model. The last part shows, for every statement that has
hypotheses, a concrete state and operands that meet them. -/

namespace Sys2Proof.Tests

open Sys2Proof Sys2Proof.Machine

/-- The state a step answers. -/
def after : Host.Outcome State Fault Refusal → Option State
  | .next t => some t
  | .fault _ => none
  | .refused _ => none

/-- The reset state with one instruction word at PC. -/
def at3000 (w : Nat) : State := State.reset.withFetchWord 16 w

/-- The reset state with the instruction word `w` at PC, R1 and R2 set, and the words of `m` stored. -/
def prepared (w : Nat) (r1 r2 : Word) (m : List (Word × Word)) : State :=
  m.foldl (fun s c => s.setWord c.1 c.2) (((at3000 w).setReg .r1 r1).setReg .r2 r2)

/-- GETC waiting with no byte delivered. -/
def waitingGetc : State := ((at3000 0xF020).setPc 0x3001#16).setPending (some .getc)

/-! WellFormed: each check refuses an ill-formed term and accepts a well-formed one. -/

theorem test_wf_jmp_r7_refused : (Instr.jmp .r7).wf = false := by decide
theorem test_wf_jmp_r6 : (Instr.jmp .r6).wf = true := by decide
theorem test_wf_trap_x20_refused : (Instr.trap 0#4 0x20#8).wf = false := by decide
theorem test_wf_trap_x21_refused : (Instr.trap 0xF#4 0x21#8).wf = false := by decide
theorem test_wf_trap_x22_refused : (Instr.trap 0#4 0x22#8).wf = false := by decide
theorem test_wf_trap_x23_refused : (Instr.trap 0#4 0x23#8).wf = false := by decide
theorem test_wf_trap_x24_refused : (Instr.trap 0#4 0x24#8).wf = false := by decide
theorem test_wf_trap_x25_refused : (Instr.trap 0#4 0x25#8).wf = false := by decide
theorem test_wf_trap_x1F : (Instr.trap 0#4 0x1F#8).wf = true := by decide
theorem test_wf_trap_x26 : (Instr.trap 0#4 0x26#8).wf = true := by decide

/-! Decoding: for every constructor a word written out from the spec's encoding (the bits are those of the format
of spec/30_encoding.md R63; the words those of the examples and vectors). -/

/-- 0001 000 001 0 00 010, R80's example. -/
theorem test_decode_addReg : decode 0b0001000001000010#16 = .addReg .r0 .r1 .r2 := by decide
/-- 0001 000 001 0 11 010: bits 4:3 ignored, V2. -/
theorem test_decode_addReg_ignored : decode 0x105A#16 = .addReg .r0 .r1 .r2 := by decide
/-- 0001 000 001 1 10000, V2: imm5 = -16. -/
theorem test_decode_addImm : decode 0b0001000001110000#16 = .addImm .r0 .r1 0b10000#5 := by decide
/-- 0101 010 011 0 00 100, R82's example. -/
theorem test_decode_andReg : decode 0b0101010011000100#16 = .andReg .r2 .r3 .r4 := by decide
/-- 0101 001 010 1 11110, R83's example. -/
theorem test_decode_andImm : decode 0b0101001010111110#16 = .andImm .r1 .r2 0b11110#5 := by decide
/-- 1001 100 101 111111, R84's example. -/
theorem test_decode_not : decode 0b1001100101111111#16 = .not .r4 .r5 := by decide
/-- 1001 000 001 000000: bits 5:0 ignored, V4. -/
theorem test_decode_not_ignored : decode 0x9040#16 = .not .r0 .r1 := by decide
/-- 0000 101 000000011, R90's example. -/
theorem test_decode_br : decode 0b0000101000000011#16 = .br true false true 3#9 := by decide
/-- 1100 000 010 000000, R91's example. -/
theorem test_decode_jmp : decode 0b1100000010000000#16 = .jmp .r2 := by decide
/-- 1100 111 011 000000: bits 11:9 ignored, V6. -/
theorem test_decode_jmp_ignored : decode 0xCEC0#16 = .jmp .r3 := by decide
/-- 1100 000 111 000000, R73. -/
theorem test_decode_ret : decode 0b1100000111000000#16 = .ret := by decide
/-- 0100 1 00000000011, R92's example. -/
theorem test_decode_jsr : decode 0b0100100000000011#16 = .jsr 3#11 := by decide
/-- 0100 0 00 011 000000, R93's example. -/
theorem test_decode_jsrr : decode 0b0100000011000000#16 = .jsrr .r3 := by decide
/-- 0010 001 000000110, R100's example. -/
theorem test_decode_ld : decode 0b0010001000000110#16 = .ld .r1 6#9 := by decide
/-- 1010 010 000000100, R101's example. -/
theorem test_decode_ldi : decode 0b1010010000000100#16 = .ldi .r2 4#9 := by decide
/-- 0110 000 001 100000, V7: offset6 = -32. -/
theorem test_decode_ldr : decode 0b0110000001100000#16 = .ldr .r0 .r1 0b100000#6 := by decide
/-- 1110 000 111111111, V7: PCoffset9 = -1. -/
theorem test_decode_lea : decode 0b1110000111111111#16 = .lea .r0 0x1FF#9 := by decide
/-- 0011 011 111111110, R104's example. -/
theorem test_decode_st : decode 0b0011011111111110#16 = .st .r3 0x1FE#9 := by decide
/-- 1011 000 000000000, R105's example. -/
theorem test_decode_sti : decode 0b1011000000000000#16 = .sti .r0 0#9 := by decide
/-- 0111 001 010 000001, R106's example. -/
theorem test_decode_str : decode 0b0111001010000001#16 = .str .r1 .r2 1#6 := by decide
/-- 1111 0000 00100110, R118's example. -/
theorem test_decode_trap : decode 0b1111000000100110#16 = .trap 0#4 0x26#8 := by decide
/-- 1111 0000 00100000, R73. -/
theorem test_decode_getc : decode 0b1111000000100000#16 = .getc := by decide
/-- 1111 0000 00100001, R73. -/
theorem test_decode_out : decode 0b1111000000100001#16 = .out := by decide
/-- 1111 0000 00100010, R73. -/
theorem test_decode_puts : decode 0b1111000000100010#16 = .puts := by decide
/-- 1111 0000 00100011, R73. -/
theorem test_decode_in : decode 0b1111000000100011#16 = .inp := by decide
/-- 1111 0000 00100100, R73. -/
theorem test_decode_putsp : decode 0b1111000000100100#16 = .putsp := by decide
/-- 1111 1111 00100101: bits 11:8 ignored, V8. -/
theorem test_decode_halt_ignored : decode 0b1111111100100101#16 = .halt := by decide
/-- 1000 000000000000, R120's example. -/
theorem test_decode_rti : decode 0b1000000000000000#16 = .rti 0#12 := by decide
/-- 1101 000100100011, R121's example. -/
theorem test_decode_reserved : decode 0b1101000100100011#16 = .reserved 0x123#12 := by decide
/-- The encoder writes RET as R73 does and NOT with the ones of R84. -/
theorem test_encode_ret_not : encode .ret = 0xC1C0#16 ∧ encode (.not .r4 .r5) = 0x997F#16 := by decide
/-- An instruction longer than one word does not exist (R61). -/
theorem test_decodeTableWord : decodeTableWord 16 0xF025 = some .halt ∧ decodeTableWord 32 0xF025 = none := by decide

/-! Sign extension, W1 and V1. -/

theorem test_sext5 : sext 0b11111#5 = 0xFFFF#16 ∧ sext 0b00001#5 = 0x0001#16 ∧ sext 0b10000#5 = 0xFFF0#16 := by decide
theorem test_sext6 : sext 0b011111#6 = 0x001F#16 ∧ sext 0b100000#6 = 0xFFE0#16 := by decide
theorem test_sext9 : sext 0x0FF#9 = 0x00FF#16 ∧ sext 0x100#9 = 0xFF00#16 ∧ sext 0x1FD#9 = 0xFFFD#16 := by decide
theorem test_sext11 : sext 0x3FF#11 = 0x03FF#16 ∧ sext 0x400#11 = 0xFC00#16 ∧ sext 0x7FF#11 = 0xFFFF#16 := by decide

/-! One step of each instruction. -/

/-- V2: signed overflow wraps. -/
theorem test_addReg : (after (step (prepared 0x1042 0x7FFF#16 0x0001#16 []))).map (fun t => (t.reg .r0, t.cond)) =
    some (0x8000#16, .n) := by decide
/-- V2: ADD R1,R1,R1 reads its source before it writes it. -/
theorem test_addReg_same : (after (step (prepared 0x1241 0x4000#16 0#16 []))).map (fun t => (t.reg .r1, t.cond)) =
    some (0x8000#16, .n) := by decide
/-- V2. -/
theorem test_addImm : (after (step (prepared 0x107D 0x0003#16 0#16 []))).map (fun t => (t.reg .r0, t.cond)) =
    some (0x0000#16, .z) := by decide
/-- V3. -/
theorem test_andReg : (after (step (prepared 0x5042 0xFF00#16 0x8F00#16 []))).map (fun t => (t.reg .r0, t.cond)) =
    some (0x8F00#16, .n) := by decide
/-- V3. -/
theorem test_andImm : (after (step (prepared 0x5070 0xFFFF#16 0#16 []))).map (fun t => (t.reg .r0, t.cond)) =
    some (0xFFF0#16, .n) := by decide
/-- V4. -/
theorem test_not : (after (step (prepared 0x907F 0x8000#16 0#16 []))).map (fun t => (t.reg .r0, t.cond)) =
    some (0x7FFF#16, .p) := by decide
/-- V5: COND = Z is not in np. -/
theorem test_br_not_taken : (after (step (at3000 0x0A02))).map (·.pc) = some 0x3001#16 := by decide
/-- V5: BRnz with COND = N. -/
theorem test_br_taken : (after (step ((at3000 0x0C02).setCond .n))).map (fun t => (t.pc, t.cond)) =
    some (0x3003#16, .n) := by decide
/-- V6. -/
theorem test_jmp : (after (step ((at3000 0xC0C0).setReg .r3 0x1234#16))).map (·.pc) = some 0x1234#16 := by decide
/-- V6. -/
theorem test_ret : (after (step ((at3000 0xC1C0).setReg .r7 0x0042#16))).map (·.pc) = some 0x0042#16 := by decide
/-- V6: JSR #-1024, which leaves COND. -/
theorem test_jsr : (after (step (at3000 0x4C00))).map (fun t => (t.reg .r7, t.pc, t.cond)) =
    some (0x3001#16, 0x2C01#16, .z) := by decide
/-- V6: JSRR R7 under each order (the step's order is the open parameter). -/
theorem test_jsrr_r7 :
    let s := ((at3000 0x41C0).setReg .r7 0x5000#16).setPc 0x3001#16
    ((callRegister .linkFirst .r7 s).reg .r7, (callRegister .linkFirst .r7 s).pc,
      (callRegister .targetFirst .r7 s).reg .r7, (callRegister .targetFirst .r7 s).pc) =
    (0x3001#16, 0x3001#16, 0x3001#16, 0x5000#16) := by decide
/-- V7: LD at 0xFFFF, the address and PC wrap. -/
theorem test_ld_wrap : (after (step (((State.reset.setPc 0xFFFF#16).withFetchWord 16 0x2000).setWord 0x0000#16 0x7000#16))).map
    (fun t => (t.reg .r0, t.cond, t.pc)) = some (0x7000#16, .p, 0x0000#16) := by decide
/-- V7: LD of KBSR polls and removes nothing. -/
theorem test_ld_kbsr : (after (step (((State.reset.setPc 0xFE01#16).withFetchWord 16 0x21FE).setInq [0x41#8]))).map
    (fun t => (t.reg .r0, t.cond, t.inq)) = some (0x8000#16, .n, [0x41#8]) := by decide
/-- W3. -/
theorem test_ldi : (after (step (prepared 0xA40F 0#16 0#16 [(0x3010#16, 0x4000#16), (0x4000#16, 0x1234#16)]))).map
    (fun t => (t.reg .r2, t.cond, t.pc)) = some (0x1234#16, .p, 0x3001#16) := by decide
/-- V7: LDI through a pointer to KBDR consumes the byte. -/
theorem test_ldi_kbdr : (after (step ((prepared 0xA404 0#16 0#16 [(0x3005#16, 0xFE02#16)]).setInq [0x0A#8]))).map
    (fun t => (t.reg .r2, t.cond, t.inq)) = some (0x000A#16, .p, []) := by decide
/-- V7: LDR with offset -32 wraps. -/
theorem test_ldr : (after (step (prepared 0x6060 0x0010#16 0#16 [(0xFFF0#16, 0x8001#16)]))).map
    (fun t => (t.reg .r0, t.cond)) = some (0x8001#16, .n) := by decide
/-- V7: LDR R1, R1, #0 reads its base before it writes it. -/
theorem test_ldr_same : (after (step (prepared 0x6240 0x4000#16 0#16 [(0x4000#16, 0x0007#16)]))).map
    (fun t => (t.reg .r1, t.cond)) = some (0x0007#16, .p) := by decide
/-- V7: LEA's wrapped zero sets Z. -/
theorem test_lea : (after (step (((State.reset.setPc 0xFFFF#16).withFetchWord 16 0xE000).setCond .n))).map
    (fun t => (t.reg .r0, t.cond)) = some (0x0000#16, .z) := by decide
/-- V7. -/
theorem test_st : (after (step ((at3000 0x37FE).setReg .r3 0x1234#16))).map (fun t => (t.word 0x2FFF#16, t.cond)) =
    some (0x1234#16, .z) := by decide
/-- V7. -/
theorem test_sti : (after (step ((prepared 0xB000 0#16 0#16 [(0x3001#16, 0x4000#16)]).setReg .r0 0xBEEF#16))).map
    (fun t => (t.word 0x4000#16, t.word 0x3001#16)) = some (0xBEEF#16, 0x4000#16) := by decide
/-- V7. -/
theorem test_str : (after (step (prepared 0x7281 0xFFFA#16 0x3008#16 []))).map (·.word 0x3009#16) = some 0xFFFA#16 := by decide
/-- V7: a store to KBSR changes nothing but PC. -/
theorem test_str_kbsr : after (step (prepared 0x7040 0xFE00#16 0#16 [])) =
    some ((prepared 0x7040 0xFE00#16 0#16 []).setPc 0x3001#16) := by decide
/-- V8: TRAP x26 is fatal and records the word. -/
theorem test_trap_bad : (after (step (at3000 0xF026))).map (fun t => (t.run, t.fault, t.pc)) =
    some (.faulted, some ⟨.badTrap, 0x3000#16, 0xF026#16⟩, 0x3001#16) := by decide
/-- V8: GETC zero-extends. -/
theorem test_getc : (after (step ((at3000 0xF020).setInq [0x80#8]))).map (fun t => (t.reg .r0, t.inq, t.outq, t.pc)) =
    some (0x0080#16, [], [], 0x3001#16) := by decide
/-- V8: a GETC with no byte waits with PC incremented. -/
theorem test_getc_waits : after (step (at3000 0xF020)) =
    some (((at3000 0xF020).setPc 0x3001#16).setPending (some .getc)) := by decide
/-- V8. -/
theorem test_out : (after (step ((at3000 0xF021).setReg .r0 0xABCD#16))).map (fun t => (t.outq, t.reg .r0, t.reg .r7)) =
    some ([0xCD#8], 0xABCD#16, 0#16) := by decide
/-- W6. -/
theorem test_puts : (after (step ((prepared 0xF022 0#16 0#16 [(0x3005#16, 0x0048#16), (0x3006#16, 0x0069#16)]).setReg .r0 0x3005#16))).map
    (fun t => (t.outq, t.reg .r0, t.pending)) = some ([0x48#8, 0x69#8], 0x3005#16, none) := by decide
/-- V8: the string's address wraps. -/
theorem test_puts_wrap : (after (step ((prepared 0xF022 0#16 0#16 [(0xFFFF#16, 0x0041#16)]).setReg .r0 0xFFFF#16))).map
    (·.outq) = some [0x41#8] := by decide
/-- V8: IN's echo and R0, after its prompt. -/
theorem test_in : (after (step ((at3000 0xF023).setInq [0x79#8]))).map (fun t => (t.reg .r0, t.inq)) =
    some (0x0079#16, []) := by decide
/-- W6: a zero high byte does not end PUTSP. -/
theorem test_putsp : (after (step ((prepared 0xF024 0#16 0#16 [(0x4000#16, 0x0041#16), (0x4001#16, 0x6948#16)]).setReg .r0 0x4000#16))).map
    (·.outq) = some [0x41#8, 0x48#8, 0x69#8] := by decide
/-- V8: a zero low byte is written. -/
theorem test_putsp_low_zero : (after (step ((prepared 0xF024 0#16 0#16 [(0x4000#16, 0x4100#16)]).setReg .r0 0x4000#16))).map
    (·.outq) = some [0x00#8, 0x41#8] := by decide
/-- V8. -/
theorem test_halt : (after (step (at3000 0xF025))).map (fun t => (t.run, t.pc, t.fault)) =
    some (.halted, 0x3001#16, none) := by decide
/-- V8. -/
theorem test_rti : (after (step (at3000 0x8000))).map (fun t => (t.run, t.fault, t.pc)) =
    some (.faulted, some ⟨.rti, 0x3000#16, 0x8000#16⟩, 0x3001#16) := by decide
/-- V8. -/
theorem test_reserved : (after (step (at3000 0xDFFF))).map (fun t => (t.run, t.fault)) =
    some (.faulted, some ⟨.reserved, 0x3000#16, 0xDFFF#16⟩) := by decide

/-! The step and the ports, V9. -/

theorem test_fetch_wrap : after (step (State.reset.setPc 0xFFFF#16)) = some (State.reset.setPc 0x0000#16) := by decide
theorem test_stop_before_first_step : after (step (State.reset.requestStop)) =
    some (State.reset.requestStop).halt := by decide
theorem test_stop_while_getc_waits :
    (after (step ((((at3000 0xF020).setPc 0x3001#16).setPending (some .getc)).requestStop))).map
      (fun t => (t.run, t.reg .r0, t.cond, t.pc, t.pending)) = some (.halted, 0#16, .z, 0x3001#16, none) := by decide
/-- R136, R144: a byte that came before the stop request ends the wait, and the next step takes the request. -/
theorem test_byte_then_stop : let s := ((waitingGetc.deliver 0x41#8).requestStop)
    (after (step s)).map (fun t => (t.run, t.reg .r0, t.inq)) = some (.running, 0x0041#16, []) ∧
      ((after (step s)).bind fun t => after (step t)).map (fun t => (t.run, t.reg .r0, t.pc)) =
        some (.halted, 0x0041#16, 0x3001#16) := by decide
/-- R136: a request that came before the byte ends the run, and the byte stays in the queue. -/
theorem test_stop_then_byte : (after (step (waitingGetc.requestStop.deliver 0x41#8))).map
    (fun t => (t.run, t.reg .r0, t.inq, t.pending)) = some (.halted, 0#16, [0x41#8], none) := by decide
/-- R60, R136: a fetch from KBDR waits before the increment. -/
theorem test_fetch_waits : after (step (State.reset.setPc 0xFE02#16)) =
    some ((State.reset.setPc 0xFE02#16).setPending (some .fetch)) := by decide
theorem test_step_when_halted : after (step State.reset.halt) = some State.reset.halt := by decide
/-- A fetch from KBDR with a byte delivered consumes it (R55): 0x0041 is a BR that is never taken. -/
theorem test_fetch_kbdr : after (step ((State.reset.setPc 0xFE02#16).setInq [0x41#8])) = some (State.reset.setPc 0xFE03#16) := by decide
/-- P1's image bytes and its load (R57). -/
theorem test_image : parseImage [0x30#8, 0x00#8, 0xE0#8, 0x01#8, 0x10#8, 0x25#8] =
    some (0x3000#16, [0xE001#16, 0x1025#16]) := by decide
theorem test_load_overlap : (loadImages [(0x3000#16, [1#16, 2#16]), (0x3001#16, [9#16])] State.reset).map
    (fun t => (t.word 0x3000#16, t.word 0x3001#16)) = some (1#16, 9#16) := by decide
theorem test_load_past_end : loadImage 0xFFFF#16 [1#16, 2#16] State.reset = none := by decide

/-! The hypotheses of the statements. Each theorem gives a concrete state and operands that meet all hypotheses of one
statement together, clause by clause, at the ends of their ranges. -/

/-- A step that answers a state. -/
def runs (i : Instr) (s : State) : Prop := ∃ t, exec i s = .next t

/-- The core before a fetch from KBDR with the bytes `q` delivered. -/
def atKbdr (q : List Byte) : State := (State.reset.setPc 0xFE02#16).setInq q

/-- A state whose PC, already incremented, makes offset -1 the address KBDR, with the bytes `q` delivered. -/
def nearKbdr (q : List Byte) : State := (State.reset.setPc 0xFE03#16).setInq q

/-- A state whose word at 0x3001 points to KBDR, with the bytes `q` delivered. -/
def pointsToKbdr (q : List Byte) : State := ((State.reset.setPc 0x3001#16).setWord 0x3001#16 0xFE02#16).setInq q

theorem witness_invariant_step : State.reset.Inv ∧ step State.reset = .next (State.reset.setPc 0x3001#16) :=
  ⟨⟨by decide, by decide, by decide, by decide⟩, rfl⟩
theorem witness_invariant_faulted : (at3000 0x8000).Inv ∧ step (at3000 0x8000) =
    .next (((at3000 0x8000).setPc 0x3001#16).raiseFatal .rti 0x8000#16) :=
  ⟨⟨by decide, by decide, by decide, by decide⟩, rfl⟩
theorem witness_invariant_waiting : waitingGetc.Inv ∧ step waitingGetc = .next waitingGetc :=
  ⟨⟨by decide, by decide, by decide, by decide⟩, rfl⟩
theorem witness_invariant_fetch : let s := (atKbdr []).setPending (some .fetch)
    s.Inv ∧ step s = .next s := ⟨⟨by decide, by decide, by decide, by decide⟩, rfl⟩
theorem witness_invariant_string : let s := State.reset.setPending (some (.puts 0xFE02#16))
    s.Inv ∧ step s = .next s := ⟨⟨by decide, by decide, by decide, by decide⟩, rfl⟩
theorem witness_step_fetches : Fetching (at3000 0x1042) ∧
    readValue (at3000 0x1042) (at3000 0x1042).pc = some 0x1042#16 := ⟨⟨rfl, rfl, rfl⟩, by decide⟩
theorem witness_step_fetches_kbdr : Fetching (atKbdr [0x41#8]) ∧
    readValue (atKbdr [0x41#8]) (atKbdr [0x41#8]).pc = some 0x0041#16 := ⟨⟨rfl, rfl, rfl⟩, by decide⟩
theorem witness_step_fetch_waits : Fetching (atKbdr []) ∧ readValue (atKbdr []) (atKbdr []).pc = none :=
  ⟨⟨rfl, rfl, rfl⟩, by decide⟩
theorem witness_stop : (State.reset.requestStop.run = .running ∧ State.reset.requestStop.stop = true ∧
      State.reset.requestStop.pending = none) ∧
    let s : State := { waitingGetc with stop := true }
    s.run = .running ∧ s.stop = true ∧ s.inq = [] := by decide
theorem witness_stop_waiting : (waitingGetc.run = .running ∧ waitingGetc.pending ≠ none ∧ waitingGetc.inq = []) ∧
    (waitingGetc.deliver 1#8).run = .running ∧ (waitingGetc.deliver 1#8).pending ≠ none ∧
      (waitingGetc.deliver 1#8).inq ≠ [] := by decide
theorem witness_stop_not_waiting : State.reset.run = .running ∧ State.reset.pending = none ∧
    (waitingGetc.deliver 1#8).inq ≠ [] ∧ State.reset.halt.run ≠ .running := by decide
theorem witness_ended : State.reset.halt.run ≠ .running := by decide
theorem witness_halt : runs .halt State.reset ∧ Instr.isTrap 0x25#8 .halt ∧
    runs (.trap 0xF#4 0x25#8) State.reset ∧ Instr.isTrap 0x25#8 (.trap 0xF#4 0x25#8) :=
  ⟨⟨_, rfl⟩, .inr rfl, ⟨_, rfl⟩, .inl ⟨_, rfl⟩⟩
theorem witness_fatal : (runs (.rti 0#12) State.reset ∧ (Instr.rti 0#12).fatal = some .rti) ∧
    (runs (.reserved 0xFFF#12) State.reset ∧ (Instr.reserved 0xFFF#12).fatal = some .reserved) ∧
    (runs (.trap 0#4 0x1F#8) State.reset ∧ (Instr.trap 0#4 0x1F#8).fatal = some .badTrap) ∧
    (runs (.trap 0#4 0x26#8) State.reset ∧ (Instr.trap 0#4 0x26#8).fatal = some .badTrap) :=
  ⟨⟨⟨_, rfl⟩, by decide⟩, ⟨⟨_, rfl⟩, by decide⟩, ⟨⟨_, rfl⟩, by decide⟩, ⟨⟨_, rfl⟩, by decide⟩⟩
theorem witness_neither : runs (.trap 0#4 0x21#8) State.reset ∧ ¬ Instr.isTrap 0x25#8 (.trap 0#4 0x21#8) ∧
    (Instr.trap 0#4 0x21#8).fatal = none := ⟨⟨_, rfl⟩, by simp [Instr.isTrap, Instr.core], by decide⟩
theorem witness_wf : (Instr.jmp .r6).wf = true ∧ (Instr.trap 0xF#4 0x1F#8).wf = true ∧
    (Instr.trap 0xF#4 0x26#8).wf = true ∧ Instr.ret.wf = true := by decide
theorem witness_ignored_bits : 0x105A#16 &&& (decode 0x1042#16).usedBits = 0x1042#16 &&& (decode 0x1042#16).usedBits ∧
    0xFF25#16 &&& (decode 0xF025#16).usedBits = 0xF025#16 &&& (decode 0xF025#16).usedBits := by decide
theorem witness_sext : ((1#1).getLsbD (1 - 1) = true ∧ (0#1).getLsbD (1 - 1) = false) ∧
    (0x8000#16).getLsbD (16 - 1) = true ∧ (0x7FFF#16).getLsbD (16 - 1) = false := by decide
theorem witness_cond_written : (runs (.lea .r0 0#9) State.reset ∧ (Instr.lea .r0 0#9).setsCond = true) ∧
    (∃ t, exec (.ld .r0 0x1FF#9) (nearKbdr []) = .next t ∧ (nearKbdr []).pending = none ∧ t.pending ≠ none) :=
  ⟨⟨⟨_, rfl⟩, rfl⟩, _, rfl, rfl, by decide⟩
theorem witness_cond_console : (runs .getc (atKbdr [0x80#8]) ∧ Instr.isTrap 0x20#8 .getc) ∧
    (runs .getc (atKbdr []) ∧ Instr.isTrap 0x20#8 .getc) ∧
    (runs (.trap 1#4 0x23#8) (atKbdr [0x80#8]) ∧ Instr.isTrap 0x23#8 (.trap 1#4 0x23#8)) :=
  ⟨⟨⟨_, rfl⟩, .inr rfl⟩, ⟨⟨_, rfl⟩, .inr rfl⟩, ⟨⟨_, rfl⟩, .inl ⟨_, rfl⟩⟩⟩
theorem witness_cond_unwritten : runs (.jsr 0#11) State.reset ∧ (Instr.jsr 0#11).setsCond = false ∧
    ¬ Instr.isTrap 0x20#8 (.jsr 0#11) ∧ ¬ Instr.isTrap 0x23#8 (.jsr 0#11) ∧ ¬ (Instr.jsr 0#11).isBr :=
  ⟨⟨_, rfl⟩, rfl, by simp [Instr.isTrap, Instr.core], by simp [Instr.isTrap, Instr.core], by simp [Instr.isBr]⟩
theorem witness_operate_words : (0x1000#16 &&& 0xF020#16 = 0x1000#16 ∧ 0x1FDF#16 &&& 0xF020#16 = 0x1000#16) ∧
    (0x1020#16 &&& 0xF020#16 = 0x1020#16 ∧ 0x1FFF#16 &&& 0xF020#16 = 0x1020#16) ∧
    (0x5000#16 &&& 0xF020#16 = 0x5000#16 ∧ 0x5FDF#16 &&& 0xF020#16 = 0x5000#16) ∧
    (0x5020#16 &&& 0xF020#16 = 0x5020#16 ∧ 0x5FFF#16 &&& 0xF020#16 = 0x5020#16) ∧
    (0x9000#16 &&& 0xF000#16 = 0x9000#16 ∧ 0x9FFF#16 &&& 0xF000#16 = 0x9000#16) := by decide
theorem witness_and_immediate_bits : 4 < 5 ∧ 5 ≤ 5 ∧ 5 < 16 ∧ 5 ≤ 15 ∧ 15 < 16 := by decide
theorem witness_alu_laws : Reg.r0 ≠ .r7 ∧ (Reg.r0 ≠ .r1 ∧ Reg.r0 ≠ .r7) := by decide
theorem witness_control_words : (0x0000#16 &&& 0xF000#16 = 0x0000#16 ∧ 0x0FFF#16 &&& 0xF000#16 = 0x0000#16) ∧
    (0xC1C0#16 &&& 0xF000#16 = 0xC000#16 ∧ 0xCE3F#16 &&& 0xF000#16 = 0xC000#16) ∧
    (0x4800#16 &&& 0xF800#16 = 0x4800#16 ∧ 0x4FFF#16 &&& 0xF800#16 = 0x4800#16) ∧
    (0x4000#16 &&& 0xF800#16 = 0x4000#16 ∧ 0x47FF#16 &&& 0xF800#16 = 0x4000#16) := by decide
theorem witness_branch : (true = true ∧ (State.reset.setCond .n).cond = .n) ∧ (true = true ∧ State.reset.cond = .z) ∧
    (true = true ∧ (State.reset.setCond .p).cond = .p) ∧
    ¬ ((true = true ∧ State.reset.cond = .n) ∨ (false = true ∧ State.reset.cond = .z) ∨
      (true = true ∧ State.reset.cond = .p)) := by decide
theorem witness_memory_words : (0x2FFF#16 &&& 0xF000#16 = 0x2000#16 ∧ 0xAFFF#16 &&& 0xF000#16 = 0xA000#16) ∧
    (0x6FFF#16 &&& 0xF000#16 = 0x6000#16 ∧ 0xEFFF#16 &&& 0xF000#16 = 0xE000#16) ∧
    (0x3FFF#16 &&& 0xF000#16 = 0x3000#16 ∧ 0xBFFF#16 &&& 0xF000#16 = 0xB000#16) ∧
    0x7FFF#16 &&& 0xF000#16 = 0x7000#16 := by decide
/-- LD of an ordinary word (with the address wrapping), of KBSR, of KBDR with a byte and without one. -/
theorem witness_ld : readValue (State.reset.setPc 0xFFFF#16) (pcPlus (State.reset.setPc 0xFFFF#16) 1#9) = some 0#16 ∧
    readValue (nearKbdr [1#8]) (pcPlus (nearKbdr [1#8]) 0x1FD#9) = some 0x8000#16 ∧
    readValue (nearKbdr [0xFF#8]) (pcPlus (nearKbdr [0xFF#8]) 0x1FF#9) = some 0x00FF#16 ∧
    readValue (nearKbdr []) (pcPlus (nearKbdr []) 0x1FF#9) = none := by decide
/-- LDI with both reads of ordinary words, with both of KBDR, and with each of its reads waiting. -/
theorem witness_ldi : (readValue State.reset (pcPlus State.reset 0#9) = some 0#16 ∧
      readValue (afterRead State.reset (pcPlus State.reset 0#9)) 0#16 = some 0#16) ∧
    (readValue (nearKbdr [5#8]) (pcPlus (nearKbdr [5#8]) 0x1FF#9) = some 5#16 ∧
      readValue (afterRead (nearKbdr [5#8]) (pcPlus (nearKbdr [5#8]) 0x1FF#9)) 5#16 = some 0#16) ∧
    readValue (nearKbdr []) (pcPlus (nearKbdr []) 0x1FF#9) = none ∧
    (readValue (pointsToKbdr []) (pcPlus (pointsToKbdr []) 0#9) = some 0xFE02#16 ∧
      readValue (afterRead (pointsToKbdr []) (pcPlus (pointsToKbdr []) 0#9)) 0xFE02#16 = none) := by decide
theorem witness_ldr : readValue State.reset (regPlus State.reset .r0 0x20#6) = some 0#16 ∧
    readValue ((atKbdr [7#8]).setReg .r1 0xFE03#16) (regPlus ((atKbdr [7#8]).setReg .r1 0xFE03#16) .r1 0x3F#6) = some 7#16 ∧
    readValue ((atKbdr []).setReg .r1 0xFE03#16) (regPlus ((atKbdr []).setReg .r1 0xFE03#16) .r1 0x3F#6) = none := by decide
theorem witness_sti : (Memory.wf State.reset.mem = true ∧ readValue State.reset (pcPlus State.reset 0#9) = some 0#16) ∧
    (Memory.wf (pointsToKbdr []).mem = true ∧ readValue (pointsToKbdr []) (pcPlus (pointsToKbdr []) 0#9) = some 0xFE02#16) ∧
    readValue (nearKbdr []) (pcPlus (nearKbdr []) 0x1FF#9) = none := by decide
theorem witness_canonical : Memory.wf (((State.reset.setWord 0xFFFF#16 1#16).setWord 0#16 0xFFFF#16).mem) = true := by decide
theorem witness_trap_words : (0xFF20#16 &&& 0xF0FF#16 = 0xF020#16 ∧ 0xFF21#16 &&& 0xF0FF#16 = 0xF021#16) ∧
    (0xFF22#16 &&& 0xF0FF#16 = 0xF022#16 ∧ 0xFF23#16 &&& 0xF0FF#16 = 0xF023#16) ∧
    (0xFF24#16 &&& 0xF0FF#16 = 0xF024#16 ∧ 0xFF25#16 &&& 0xF0FF#16 = 0xF025#16) ∧
    (0xF01F#16 &&& 0xF000#16 = 0xF000#16 ∧ (0xF01F#16).toNat % 256 < 0x20) ∧
    (0xFF26#16 &&& 0xF000#16 = 0xF000#16 ∧ 0x25 < (0xFF26#16).toNat % 256) := by decide
/-- The queue of GETC, IN and KBDR with one byte, with more, and with none. -/
theorem witness_console_input : (atKbdr [0xFF#8]).inq = 0xFF#8 :: [] ∧ (atKbdr [1#8, 2#8]).inq = 1#8 :: 2#8 :: [] ∧
    (atKbdr []).inq = [] ∧ (atKbdr [0#8]).inq ≠ [] := by decide
/-- The empty string, and one that wraps past 0xFFFF. -/
theorem witness_string : StringAt State.reset (State.reset.reg .r0) [] ∧
    StringAt ((State.reset.setReg .r0 0xFFFF#16).setWord 0xFFFF#16 0x6948#16)
      (((State.reset.setReg .r0 0xFFFF#16).setWord 0xFFFF#16 0x6948#16).reg .r0) [0x6948#16] :=
  ⟨⟨by decide, by decide⟩, by decide, by decide, by decide, by decide, by decide⟩
theorem witness_unrecognised : ((0x00#8).toNat < 0x20 ∧ (0x1F#8).toNat < 0x20) ∧
    (0x25 < (0x26#8).toNat ∧ 0x25 < (0xFF#8).toNat) := by decide
theorem witness_undefined_words : (0x8000#16 &&& 0xF000#16 = 0x8000#16 ∧ 0x8FFF#16 &&& 0xF000#16 = 0x8000#16) ∧
    (0xD000#16 &&& 0xF000#16 = 0xD000#16 ∧ 0xDFFF#16 &&& 0xF000#16 = 0xD000#16) := by decide
theorem witness_fatal_step : Fetching (at3000 0xF01F) ∧ ordinary (at3000 0xF01F).pc ∧
    (at3000 0xF01F).word (at3000 0xF01F).pc = 0xF01F#16 ∧ (decode 0xF01F#16).fatal = some .badTrap :=
  ⟨⟨rfl, rfl, rfl⟩, by decide, by decide, by decide⟩
theorem witness_ordinary : (ordinary 0xFDFF#16 ∧ ordinary 0xFE01#16) ∧ (ordinary 0xFE03#16 ∧ ordinary 0xFFFF#16) ∧
    ordinary 0x0000#16 := by decide
theorem witness_same_memory : (waitingGetc.setInq [1#8]).mem = waitingGetc.mem := by decide
theorem witness_device : 0xFE00#16 = kbsrAddr ∧ 0xFE02#16 = kbdrAddr := by decide
/-- STR, then STI, over the word the next step fetches. -/
theorem witness_store_fetch : let s := (State.reset.setPc 0x3001#16).setReg .r1 0x3001#16
    Fetching s ∧ Memory.wf s.mem = true ∧ ordinary s.pc ∧ (Instr.str .r0 .r1 0#6).storeSource = some .r0 ∧
      (Instr.str .r0 .r1 0#6).storeTarget s = some s.pc ∧ runs (.str .r0 .r1 0#6) s :=
  ⟨⟨rfl, rfl, rfl⟩, by decide, by decide, by decide, by decide, _, rfl⟩
theorem witness_store_fetch_sti : let s := (State.reset.setPc 0x3001#16).setWord 0x3002#16 0x3001#16
    Fetching s ∧ Memory.wf s.mem = true ∧ ordinary s.pc ∧ (Instr.sti .r0 1#9).storeSource = some .r0 ∧
      (Instr.sti .r0 1#9).storeTarget s = some s.pc ∧ runs (.sti .r0 1#9) s :=
  ⟨⟨rfl, rfl, rfl⟩, by decide, by decide, by decide, by decide, _, rfl⟩
theorem witness_memory_frame : (Memory.wf State.reset.mem = true ∧ runs (.st .r0 0x100#9) State.reset ∧
      (Instr.st .r0 0x100#9).storeTarget State.reset = some 0x2F00#16 ∧ 0x2F01#16 ≠ 0x2F00#16) ∧
    (runs (.ld .r0 0#9) State.reset ∧ (Instr.ld .r0 0#9).storeTarget State.reset = none) ∧
    (runs (.sti .r0 0x1FF#9) (nearKbdr []) ∧ (Instr.sti .r0 0x1FF#9).storeTarget (nearKbdr []) = none) :=
  ⟨⟨by decide, ⟨_, rfl⟩, by decide, by decide⟩, ⟨⟨_, rfl⟩, by decide⟩, ⟨_, rfl⟩, by decide⟩
theorem witness_register_frame : runs (.jsr 0#11) State.reset ∧ (Instr.jsr 0#11).dest ≠ some .r6 ∧
    runs .halt State.reset ∧ Instr.halt.dest ≠ some .r7 := ⟨⟨_, rfl⟩, by decide, ⟨_, rfl⟩, by decide⟩
theorem witness_pc_frame : runs .halt State.reset ∧ ¬ Instr.halt.writesPc := ⟨⟨_, rfl⟩, by simp [Instr.writesPc, Instr.opcode]⟩
theorem witness_console_frame : runs .getc (atKbdr [1#8]) ∧ ¬ Instr.getc.writesConsole :=
  ⟨⟨_, rfl⟩, by simp [Instr.writesConsole, Instr.isTrap, Instr.core]⟩
theorem witness_waiting_core : waitingGetc.Inv ∧ waitingGetc.pending ≠ none ∧ waitingGetc.stop = false ∧ waitingGetc.inq = [] :=
  ⟨⟨by decide, by decide, by decide, by decide⟩, by decide, by decide, by decide⟩
theorem witness_wait_transparent_fetch : Fetching (atKbdr []) ∧ (atKbdr []).inq = [] ∧
    step (atKbdr []) = .next ((atKbdr []).wait .fetch) ∧ ((atKbdr []).wait .fetch).pending ≠ none :=
  ⟨⟨rfl, rfl, rfl⟩, by decide, rfl, by decide⟩
theorem witness_wait_transparent : Fetching (at3000 0xF020) ∧ (at3000 0xF020).inq = [] ∧
    step (at3000 0xF020) = .next waitingGetc ∧ waitingGetc.pending ≠ none :=
  ⟨⟨rfl, rfl, rfl⟩, by decide, rfl, by decide⟩
/-- An image that ends at 0xFFFF, one word more, its words, an address outside, and a last word cut short. -/
theorem witness_load_image : (Memory.wf State.reset.mem = true ∧ (0xFFFF#16).toNat + [7#16].length ≤ 65536) ∧
    65536 < (0xFFFF#16).toNat + [7#16, 8#16].length ∧ [7#16][0]? = some 7#16 ∧
    (0xFFFE#16).toNat < (0xFFFF#16).toNat ∧ (0x3000#16).toNat + [7#16].length ≤ (0x3001#16).toNat ∧
    [0x30#8, 0x00#8, 0xF0#8].length % 2 = 1 := by decide
theorem witness_boot : ∃ t, boot [(0x3000#16, [0xF025#16])] = some t ∧ [0xF025#16][0]? = some 0xF025#16 ∧
    (0x2FFF#16).toNat < (0x3000#16).toNat := ⟨_, rfl, rfl, by decide⟩
theorem witness_exit_running : State.reset.run = .running ∧ ∃ t, step State.reset = .next t ∧ t.run = .running :=
  ⟨rfl, _, rfl, by decide⟩
theorem witness_exit_stop : State.reset.requestStop.run = .running ∧ State.reset.requestStop.stop = true ∧
    ∃ t, step State.reset.requestStop = .next t ∧ t.run = .halted := ⟨rfl, rfl, _, rfl, rfl⟩
theorem witness_exit_halt : (at3000 0xF025).run = .running ∧ (at3000 0xF025).stop = false ∧
    ∃ t, step (at3000 0xF025) = .next t ∧ t.run = .halted := ⟨rfl, rfl, _, rfl, rfl⟩
theorem witness_exit_faulted : (at3000 0xD000).run = .running ∧
    ∃ t, step (at3000 0xD000) = .next t ∧ t.run = .faulted := ⟨rfl, _, rfl, rfl⟩

end Sys2Proof.Tests
end

/-! SUPPORT. The state's invariant, its frame and its console (spec/10_state.md): what an instruction may do, said once,
and the statements about the state derived from it. -/

section
/-! What the shared operations do, in the form the case analysis of an instruction needs. -/

namespace Sys2Proof.Machine

theorem State.setPending_eq_self {s : State} {p : Option Pending} (h : s.pending = p) : s.setPending p = s := by
  subst h; rfl

/-- A read removes at most the head of `inq`, and changes nothing else. -/
theorem memRead_inq {a w : Word} {s s' : State} (h : memRead a s = some (w, s')) :
    ∃ q, q <:+ s.inq ∧ s' = s.setInq q := by
  rcases memRead_state h with rfl | ⟨-, b, q, hq, rfl⟩
  · exact ⟨s'.inq, List.suffix_rfl, rfl⟩
  · exact ⟨q, hq ▸ List.suffix_cons b q, rfl⟩

/-- A load reads a word and writes its result, or waits with nothing done. -/
theorem loadFrom_effect (dr : Reg) (a : Word) (s : State) :
    ∃ q, q <:+ s.inq ∧
      ((∃ r, loadFrom dr a s = (s.setInq q).result dr r) ∨ loadFrom dr a s = (s.setInq q).wait (.load dr)) := by
  rcases loadFrom_cases dr a s with ⟨-, h⟩ | ⟨w, s', hr, h⟩
  · exact ⟨s.inq, List.suffix_rfl, .inr h⟩
  · obtain ⟨q, hq, rfl⟩ := memRead_inq hr
    exact ⟨q, hq, .inl ⟨w, h⟩⟩

/-- Enough reads: the string loop takes from the head of `inq`, appends to `outq`, and ends or waits at KBDR. -/
theorem stringLoop_effect (bytes : Word → List Byte) (left : Word → Pending) {fuel : Nat} {a : Word} {s : State}
    (h : readsBound a s.inq.length < fuel) :
    ∃ q o p, q <:+ s.inq ∧ s.outq <+: o ∧ (p = s.pending ∨ p = some (left kbdrAddr)) ∧
      stringLoop bytes left fuel a s = { s with inq := q, outq := o, pending := p } := by
  induction fuel generalizing a s with
  | zero => omega
  | succ fuel ih =>
    rcases stringLoop_succ bytes left fuel a s with ⟨hr, hl⟩ | ⟨s', hr, hl⟩ | ⟨w, s', hr, -, hl⟩
    · obtain ⟨rfl, -⟩ := memRead_none.mp hr
      exact ⟨s.inq, s.outq, _, List.suffix_rfl, List.prefix_rfl, .inr rfl, hl⟩
    · obtain ⟨q, hq, rfl⟩ := memRead_inq hr
      exact ⟨q, s.outq, s.pending, hq, List.prefix_rfl, .inl rfl, hl⟩
    · have hb := readsBound_read hr
      obtain ⟨q, hq, rfl⟩ := memRead_inq hr
      obtain ⟨q', o, p, hq', ho, hp, hl'⟩ := @ih (a + 1#16) ((s.setInq q).emit (bytes w)) (by rw [State.emit_inq]; omega)
      exact ⟨q', o, p, hq'.trans hq, (List.prefix_append _ _).trans ho, hp, hl.trans hl'⟩

/-- A turn of a string routine that reads a non-zero word goes on with the reads of the state after it. -/
theorem stringLoop_next (bytes : Word → List Byte) (left : Word → Pending) {a w : Word} {s s' : State}
    (hr : memRead a s = some (w, s')) (hw : w ≠ 0#16) :
    stringLoop bytes left (stringFuel s) a s =
      stringLoop bytes left (stringFuel s') (a + 1#16) (s'.emit (bytes w)) := by
  have hturn : stringLoop bytes left (stringFuel s + 1) a s =
      stringLoop bytes left (stringFuel s) (a + 1#16) (s'.emit (bytes w)) := by
    simp only [stringLoop, hr, if_neg hw]
  have hfuel : stringFuel s' ≤ stringFuel s := by
    obtain ⟨q, hq, rfl⟩ := memRead_inq hr
    have := hq.length_le
    simp only [stringFuel, State.setInq_inq]
    omega
  rw [← stringLoop_one_more bytes left (readsBound_lt_stringFuel a s), hturn]
  exact stringLoop_enough bytes left (readsBound_lt_stringFuel (a + 1#16) s') hfuel

end Sys2Proof.Machine
end

section
/-! Forms of an instruction: TRAP under its two names, and what a form rules out. -/

namespace Sys2Proof.Machine

/-- An instruction that is TRAP with a vector dispatches on it, under either of its names (R110, R73). -/
theorem exec_of_isTrap {i : Instr} {v : BitVec 8} (h : i.isTrap v) (s : State) :
    ∃ ig, exec i s = .next (dispatchTrap ig v s) := by
  rcases h with ⟨ig, rfl⟩ | h
  · exact ⟨ig, rfl⟩
  · refine ⟨0#4, ?_⟩
    cases i <;> cases h <;> rfl

theorem setsCond_of_isTrap {i : Instr} {v : BitVec 8} (h : i.isTrap v) : i.setsCond = false := by
  rcases h with ⟨ig, rfl⟩ | h
  · rfl
  · cases i <;> cases h <;> rfl

/-- GETC and IN write R0 (R112, R115). -/
theorem dest_of_isTrap {i : Instr} {v : BitVec 8} (h : i.isTrap v) (hv : v = 0x20#8 ∨ v = 0x23#8) :
    i.dest = some .r0 := by
  rcases h with ⟨ig, rfl⟩ | h
  · exact if_pos hv
  · rcases hv with rfl | rfl <;> cases i <;> cases h <;> rfl

end Sys2Proof.Machine
end

section
/-! What the execution of one instruction can do, said once. -/

namespace Sys2Proof.Machine

/-- `Effect i s t`: executing `i` in state `s` may answer `t`. One constructor per way an instruction ends or waits;
`q` is what is left of the console input. -/
inductive Effect (i : Instr) (s : State) : State → Prop
  | result {dr r q} (hd : i.dest = some dr) (hc : i.setsCond = true) (hq : q <:+ s.inq) :
      Effect i s ((s.setInq q).result dr r)
  | wait {p q} (hp : ∀ pc, pendingAtKbdr pc (some p) = true) (hq : q <:+ s.inq) : Effect i s ((s.setInq q).wait p)
  | jump {v} (hi : i.writesPc) (hc : i.setsCond = false) : Effect i s (s.setPc v)
  | call {v} (hi : i.writesPc) (hd : i.dest = some .r7) (hc : i.setsCond = false) : Effect i s (s.link.setPc v)
  | store {a v q} (hc : i.setsCond = false) (hq : q <:+ s.inq) : Effect i s (memWrite a v (s.setInq q))
  | getc {b q} (hi : i.isTrap 0x20#8) (hq : q <:+ s.inq) : Effect i s ((s.setInq q).takeByte b)
  | out {o} (hi : i.isTrap 0x21#8) : Effect i s (s.emit o)
  | string {q o p} (hi : i.isTrap 0x22#8 ∨ i.isTrap 0x24#8) (hq : q <:+ s.inq) (ho : s.outq <+: o)
      (hp : p = s.pending ∨ ∀ pc, pendingAtKbdr pc p = true) :
      Effect i s { s with inq := q, outq := o, pending := p }
  | inp {o b q} (hi : i.isTrap 0x23#8) (hq : q <:+ s.inq) : Effect i s (((s.setInq q).emit o).takeByte b)
  | inpWait {o} (hi : i.isTrap 0x23#8) : Effect i s ((s.emit o).wait .inByte)
  | halt {o} (hi : i.isTrap 0x25#8) : Effect i s (s.emit o).halt
  | fatal {c w} (hi : i.fatal = some c) (hc : i.setsCond = false) : Effect i s (s.raiseFatal c w)

theorem Effect.of_loadFrom {i : Instr} {dr : Reg} (a : Word) {s : State} {q : List Byte} (hd : i.dest = some dr)
    (hc : i.setsCond = true) (hq : q <:+ s.inq) : Effect i s (loadFrom dr a (s.setInq q)) := by
  obtain ⟨q', hq', ⟨r, h⟩ | h⟩ := loadFrom_effect dr a (s.setInq q)
  · exact h ▸ .result hd hc (hq'.trans hq)
  · exact h ▸ .wait (fun _ => rfl) (hq'.trans hq)

theorem Effect.of_loadIndirect {i : Instr} {dr : Reg} (a : Word) {s : State} (hd : i.dest = some dr)
    (hc : i.setsCond = true) : Effect i s (loadIndirect dr a s) := by
  rcases loadIndirect_cases dr a s with ⟨-, h⟩ | ⟨ea, s', hr, h⟩
  · exact h ▸ .wait (q := s.inq) (fun _ => rfl) List.suffix_rfl
  · obtain ⟨q, hq, rfl⟩ := memRead_inq hr
    exact h ▸ .of_loadFrom ea hd hc hq

theorem Effect.of_storeIndirect {i : Instr} (sr : Reg) (a : Word) {s : State} (hc : i.setsCond = false) :
    Effect i s (storeIndirect sr a s) := by
  rcases storeIndirect_cases sr a s with ⟨-, h⟩ | ⟨ea, s', hr, h⟩
  · exact h ▸ .wait (q := s.inq) (fun _ => rfl) List.suffix_rfl
  · obtain ⟨q, hq, rfl⟩ := memRead_inq hr
    exact h ▸ .store hc hq

theorem Effect.of_getcRoutine {i : Instr} (hi : i.isTrap 0x20#8) (s : State) : Effect i s (getcRoutine s) := by
  rcases getcRoutine_cases s with ⟨-, h⟩ | ⟨b, q, hq, h⟩
  · exact h ▸ .wait (q := s.inq) (fun _ => rfl) List.suffix_rfl
  · exact h ▸ .getc hi (hq ▸ List.suffix_cons b q)

/-- IN's console read, after the bytes `o` of the prompt that this step has written. -/
theorem Effect.of_inByteRoutine {i : Instr} (hi : i.isTrap 0x23#8) (o : List Byte) (s : State) :
    Effect i s (inByteRoutine (s.emit o)) := by
  rcases inByteRoutine_cases (s.emit o) with ⟨-, h⟩ | ⟨b, q, hq, h⟩
  · exact h ▸ .inpWait hi
  · have hout : ((s.emit o).setInq q).emit [b] = (s.setInq q).emit (o ++ [b]) := by
      simp [State.emit, State.setInq]
    rw [h, hout]
    exact .inp hi (hq ▸ List.suffix_cons b q : q <:+ (s.emit o).inq)

theorem Effect.of_stringLoop {i : Instr} (hi : i.isTrap 0x22#8 ∨ i.isTrap 0x24#8) (bytes : Word → List Byte)
    {left : Word → Pending} (hl : ∀ pc, pendingAtKbdr pc (some (left kbdrAddr)) = true) (a : Word) (s : State) :
    Effect i s (stringLoop bytes left (stringFuel s) a s) := by
  obtain ⟨q, o, p, hq, ho, hp, h⟩ := stringLoop_effect bytes left (readsBound_lt_stringFuel a s)
  rw [h]
  refine .string hi hq ho (hp.imp_right ?_)
  rintro rfl
  exact hl

theorem Effect.of_putsFrom {i : Instr} (hi : i.isTrap 0x22#8) (a : Word) (s : State) : Effect i s (putsFrom a s) :=
  .of_stringLoop (.inl hi) plainBytes (fun _ => rfl) a s

theorem Effect.of_putspFrom {i : Instr} (hi : i.isTrap 0x24#8) (a : Word) (s : State) : Effect i s (putspFrom a s) :=
  .of_stringLoop (.inr hi) packedBytes (fun _ => rfl) a s

/-- The dispatch of a recognised vector runs its routine. -/
theorem Effect.of_routine {i : Instr} {v : BitVec 8} (hi : i.isTrap v)
    (hv : v = 0x20#8 ∨ v = 0x21#8 ∨ v = 0x22#8 ∨ v = 0x23#8 ∨ v = 0x24#8 ∨ v = 0x25#8) (ig : BitVec 4) (s : State) :
    Effect i s (dispatchTrap ig v s) := by
  rcases hv with rfl | rfl | rfl | rfl | rfl | rfl
  · exact .of_getcRoutine hi s
  · exact .out hi
  · exact .of_putsFrom hi (s.reg .r0) s
  · exact .of_inByteRoutine hi Config.inPrompt s
  · exact .of_putspFrom hi (s.reg .r0) s
  · exact .halt hi

theorem Effect.of_trap (ig : BitVec 4) (v : BitVec 8) (s : State) : Effect (.trap ig v) s (dispatchTrap ig v s) := by
  rcases Laws.vector_cases v with hv | hv
  · exact .of_routine (.inl ⟨ig, rfl⟩) hv ig s
  · rw [Laws.dispatchTrap_unrecognised ig s hv]
    exact .fatal (if_neg (by omega)) rfl

/-- Every execution answers a next state, in one of the ways of `Effect`. -/
theorem exec_effect (i : Instr) (s : State) : ∃ t, exec i s = .next t ∧ Effect i s t := by
  have hq : s.inq <:+ s.inq := List.suffix_rfl
  cases i with
  | addReg => exact ⟨_, rfl, .result rfl rfl hq⟩
  | addImm => exact ⟨_, rfl, .result rfl rfl hq⟩
  | andReg => exact ⟨_, rfl, .result rfl rfl hq⟩
  | andImm => exact ⟨_, rfl, .result rfl rfl hq⟩
  | not => exact ⟨_, rfl, .result rfl rfl hq⟩
  | lea => exact ⟨_, rfl, .result rfl rfl hq⟩
  | br n z p off9 =>
    refine ⟨_, rfl, ?_⟩
    split
    · exact .jump (.inl rfl) rfl
    · exact .jump (v := s.pc) (.inl rfl) rfl
  | jmp => exact ⟨_, rfl, .jump (.inr (.inl rfl)) rfl⟩
  | ret => exact ⟨_, rfl, .jump (.inr (.inl rfl)) rfl⟩
  | jsr => exact ⟨_, rfl, .call (.inr (.inr rfl)) rfl rfl⟩
  | jsrr base =>
    refine ⟨_, rfl, ?_⟩
    unfold callRegister
    split <;> exact .call (.inr (.inr rfl)) rfl rfl
  | ld => exact ⟨_, rfl, .of_loadFrom _ rfl rfl hq⟩
  | ldr => exact ⟨_, rfl, .of_loadFrom _ rfl rfl hq⟩
  | ldi => exact ⟨_, rfl, .of_loadIndirect _ rfl rfl⟩
  | st => exact ⟨_, rfl, .store rfl hq⟩
  | str => exact ⟨_, rfl, .store rfl hq⟩
  | sti => exact ⟨_, rfl, .of_storeIndirect _ _ rfl⟩
  | trap ig v => exact ⟨_, rfl, .of_trap ig v s⟩
  | getc => exact ⟨_, rfl, .of_routine (v := 0x20#8) (.inr rfl) (by decide) 0#4 s⟩
  | out => exact ⟨_, rfl, .of_routine (v := 0x21#8) (.inr rfl) (by decide) 0#4 s⟩
  | puts => exact ⟨_, rfl, .of_routine (v := 0x22#8) (.inr rfl) (by decide) 0#4 s⟩
  | inp => exact ⟨_, rfl, .of_routine (v := 0x23#8) (.inr rfl) (by decide) 0#4 s⟩
  | putsp => exact ⟨_, rfl, .of_routine (v := 0x24#8) (.inr rfl) (by decide) 0#4 s⟩
  | halt => exact ⟨_, rfl, .of_routine (v := 0x25#8) (.inr rfl) (by decide) 0#4 s⟩
  | rti => exact ⟨_, rfl, .fatal rfl rfl⟩
  | reserved => exact ⟨_, rfl, .fatal rfl rfl⟩

theorem effect_of_exec {i : Instr} {s t : State} (h : exec i s = .next t) : Effect i s t := by
  obtain ⟨t', h', he⟩ := exec_effect i s
  rw [h] at h'
  cases h'
  exact he

/-! The same for the fetch, the resumption of an instruction that waited, and the step. -/

/-- A fetch waits at KBDR, or an instruction runs with PC incremented. -/
theorem fetchAndExecute_effect {s t : State} (h : fetchAndExecute s = .next t) :
    (s.pc = kbdrAddr ∧ t = s.wait .fetch) ∨
    (∃ q pc i, q <:+ s.inq ∧ Effect i ((s.setInq q).setPc pc) t) := by
  rcases fetchAndExecute_cases s with ⟨hpc, -, hw⟩ | ⟨w, s', hr, he⟩
  · rw [h] at hw
    cases hw
    exact .inl ⟨hpc, rfl⟩
  · obtain ⟨q, hq, rfl⟩ := memRead_inq hr
    exact .inr ⟨q, _, decode w, hq, effect_of_exec (he ▸ h)⟩

/-- What is left of an instruction after its wait does what an instruction of its kind can do. -/
theorem resume_effect {p : Pending} {s t : State} (h : resume p s = .next t) :
    (s.pc = kbdrAddr ∧ t = s.wait .fetch) ∨
    (∃ q pc i, q <:+ s.inq ∧ Effect i ((s.setInq q).setPc pc) t) := by
  cases p with
  | fetch => exact fetchAndExecute_effect h
  | load dr => cases h; exact .inr ⟨s.inq, s.pc, .ld dr 0#9, List.suffix_rfl, .of_loadFrom _ rfl rfl List.suffix_rfl⟩
  | ldiPointer dr => cases h; exact .inr ⟨s.inq, s.pc, .ldi dr 0#9, List.suffix_rfl, .of_loadIndirect _ rfl rfl⟩
  | stiPointer sr => cases h; exact .inr ⟨s.inq, s.pc, .sti sr 0#9, List.suffix_rfl, .of_storeIndirect _ _ rfl⟩
  | getc => cases h; exact .inr ⟨s.inq, s.pc, .getc, List.suffix_rfl, .of_getcRoutine (.inr rfl) s⟩
  | inByte =>
    cases h
    refine .inr ⟨s.inq, s.pc, .inp, List.suffix_rfl, ?_⟩
    have h := Effect.of_inByteRoutine (i := .inp) (.inr rfl) [] s
    rwa [show s.emit [] = s by simp [State.emit]] at h
  | puts a => cases h; exact .inr ⟨s.inq, s.pc, .puts, List.suffix_rfl, .of_putsFrom (.inr rfl) a s⟩
  | putsp a => cases h; exact .inr ⟨s.inq, s.pc, .putsp, List.suffix_rfl, .of_putspFrom (.inr rfl) a s⟩

/-- A step leaves the state alone, or the core runs and takes a stop request, waits in its fetch, or does what an
instruction can do. -/
theorem step_effect {s t : State} (h : step s = .next t) :
    t = s ∨ s.run = .running ∧
      (t = s.stopNow ∨ (s.pc = kbdrAddr ∧ t = s.wait .fetch) ∨
        ∃ q pc i, q <:+ s.inq ∧ Effect i (((s.setPending none).setInq q).setPc pc) t) := by
  rcases step_cases s with ⟨-, hs⟩ | ⟨hrun, -, -, hs⟩ | ⟨p, hrun, -, -, hs⟩ | ⟨⟨hrun, -, hp⟩, hs⟩ <;> rw [hs] at h
  · cases h; exact .inl rfl
  · cases h; exact .inr ⟨hrun, .inl rfl⟩
  · exact .inr ⟨hrun, .inr (resume_effect h)⟩
  · rw [← State.setPending_eq_self hp] at h
    exact .inr ⟨hrun, .inr (fetchAndExecute_effect h)⟩

end Sys2Proof.Machine
end

section
/-! The invariant at reset, at every step and at every host event (O2, O3, O4), and the reset state (O1). -/

namespace Sys2Proof.Machine

/-- An instruction of a running core keeps the invariant. -/
theorem Effect.inv {i : Instr} {s t : State} (he : Effect i s t) (hs : s.Inv) (hrun : s.run = .running)
    (hp : s.pending = none) : t.Inv := by
  obtain ⟨hm, hf, hr, hk⟩ := hs
  have hk' : ∀ pc, pendingAtKbdr pc s.pending = true := fun pc => by rw [hp]; rfl
  cases he with
  | result => exact ⟨hm, hf, hr, hk⟩
  | wait hw => exact ⟨hm, hf, fun _ => hrun, hw _⟩
  | jump => exact ⟨hm, hf, hr, hk' _⟩
  | call => exact ⟨hm, hf, hr, hk' _⟩
  | @store a v q => rw [memWrite_eq]; exact ⟨memWrite_wf (s := s.setInq q) hm a v, hf, hr, hk⟩
  | getc => exact ⟨hm, hf, hr, hk⟩
  | out => exact ⟨hm, hf, hr, hk⟩
  | string _ _ _ hw =>
    refine ⟨hm, hf, fun _ => hrun, ?_⟩
    rcases hw with rfl | hw
    · exact hk
    · exact hw s.pc
  | inp => exact ⟨hm, hf, hr, hk⟩
  | inpWait => exact ⟨hm, hf, fun _ => hrun, rfl⟩
  | halt => exact ⟨hm, by simpa [hrun] using hf, fun h => absurd hp h, hk⟩
  | fatal => exact ⟨hm, by simp, fun h => absurd hp h, hk⟩

/-- Settles O3: a step leaves the run as it was, ends it, waits in its fetch, or has the effect of an instruction. -/
theorem stepKeepsTheInvariant : Obligations.StepKeepsTheInvariant := by
  unfold Obligations.StepKeepsTheInvariant
  intro s t hs h
  rcases step_effect h with rfl | ⟨hrun, ht⟩
  · exact hs
  have ⟨hm, hf, _, _⟩ := hs
  rcases ht with rfl | ⟨hpc, rfl⟩ | ⟨q, pc, i, -, he⟩
  · exact ⟨hm, by simpa [hrun] using hf, fun h => absurd rfl h, rfl⟩
  · exact ⟨hm, hf, fun _ => hrun, decide_eq_true hpc⟩
  · exact he.inv ⟨hm, hf, fun h => absurd rfl h, rfl⟩ hrun rfl

/-- Settles O1, field by field. -/
theorem resetIsTheStateOfTheSpec : Obligations.ResetIsTheStateOfTheSpec := by
  unfold Obligations.ResetIsTheStateOfTheSpec
  refine ⟨fun r => ?_, rfl, rfl, fun _ => rfl, rfl, rfl, rfl, rfl, rfl, rfl⟩
  cases r <;> rfl

/-- Settles O2: the empty memory is canonical, the core runs without a fault, and no instruction is in progress. -/
theorem resetMeetsTheInvariant : Obligations.ResetMeetsTheInvariant := by
  unfold Obligations.ResetMeetsTheInvariant
  exact ⟨rfl, by simp [State.reset], fun h => absurd rfl h, rfl⟩

/-- A stop request keeps the invariant, whichever of its three cases it is. -/
theorem State.Inv.requestStop {s : State} (hs : s.Inv) : s.requestStop.Inv := by
  have ⟨hm, hf, hr, hk⟩ := hs
  rcases State.requestStop_cases s with ⟨-, h⟩ | ⟨hrun, -, -, h⟩ | ⟨-, -, h⟩ <;> rw [h]
  · exact hs
  · exact ⟨hm, by simpa [hrun] using hf, fun h => absurd rfl h, rfl⟩
  · exact ⟨hm, hf, hr, hk⟩

/-- Settles O4: the cases of a stop request exclude each other by their hypotheses. -/
theorem hostEventsDoOnlyTheirOwn : Obligations.HostEventsDoOnlyTheirOwn := by
  unfold Obligations.HostEventsDoOnlyTheirOwn
  refine ⟨fun _ _ => rfl, fun s hrun => ?_, fun s hrun hw => ?_, fun s hrun hp hq => ?_, fun s e hs => ?_⟩
  · show s.requestStop = s
    rcases State.requestStop_cases s with ⟨-, h⟩ | ⟨hr, -⟩ | ⟨hr, -⟩
    · exact h
    · exact absurd hr hrun
    · exact absurd hr hrun
  · show s.requestStop = _
    rcases State.requestStop_cases s with ⟨hr, -⟩ | ⟨-, hp, hq, -⟩ | ⟨-, -, h⟩
    · exact absurd hrun hr
    · exact absurd hw (by tauto)
    · exact h
  · show s.requestStop = _
    rcases State.requestStop_cases s with ⟨hr, -⟩ | ⟨-, -, -, h⟩ | ⟨-, hw, -⟩
    · exact absurd hrun hr
    · exact h
    · exact absurd hw (by tauto)
  · cases e with
    | byte b => exact ⟨hs.memory, hs.fault, hs.running, hs.atKbdr⟩
    | stopRequest => exact hs.requestStop

end Sys2Proof.Machine
end

section
/-! The run state, the flag and the frames of an instruction (O8, O15, O16, O52, O53, O54). -/

namespace Sys2Proof.Machine

/-- A fatal instruction raises its condition, and does nothing else (R131). -/
theorem exec_of_fatal {i : Instr} {c : FatalCode} (h : i.fatal = some c) (s : State) :
    ∃ w, exec i s = .next (s.raiseFatal c w) := by
  cases i <;> simp only [Instr.fatal, reduceCtorEq, Option.some.injEq, Option.ite_none_left_eq_some] at h
  case trap ig v =>
    obtain ⟨hv, rfl⟩ := h
    exact ⟨_, congrArg Host.Outcome.next (Laws.dispatchTrap_unrecognised ig s (by omega))⟩
  case rti => subst h; exact ⟨_, rfl⟩
  case reserved => subst h; exact ⟨_, rfl⟩

/-- Neither HALT nor a fatal instruction: the run goes on, with no fault recorded. -/
theorem Effect.run_fault {i : Instr} {s t : State} (he : Effect i s t) (hh : ¬ i.isTrap 0x25#8) (hf : i.fatal = none) :
    t.run = s.run ∧ t.fault = s.fault := by
  cases he with
  | store => rw [memWrite_eq]; exact ⟨rfl, rfl⟩
  | halt hi => exact absurd hi hh
  | fatal hi => rw [hf] at hi; cases hi
  | _ => exact ⟨rfl, rfl⟩

/-- Settles O8: an ended run does not step; HALT and a fatal instruction have one effect each, and no other
instruction writes the run state. -/
theorem runStateTransitions : Obligations.RunStateTransitions := by
  unfold Obligations.RunStateTransitions
  refine ⟨fun s hrun => ?_, fun i s t h hi => ?_, fun i s t c h hi => ?_, fun i s t h hh hf => ?_⟩
  · rcases step_cases s with ⟨-, h⟩ | ⟨hr, -⟩ | ⟨p, hr, -⟩ | ⟨⟨hr, -⟩, -⟩
    · exact h
    all_goals exact absurd hr hrun
  · obtain ⟨ig, he⟩ := exec_of_isTrap hi s
    cases he.symm.trans h
    exact ⟨rfl, rfl⟩
  · obtain ⟨w, he⟩ := exec_of_fatal hi s
    cases he.symm.trans h
    exact ⟨rfl, w, rfl⟩
  · exact (effect_of_exec h).run_fault hh hf

/-- Settles O15: the flag is `condOf`, whose two tests are those of R26. -/
theorem setccFollowsTheSign : Obligations.SetccFollowsTheSign := by
  unfold Obligations.SetccFollowsTheSign
  intro s v
  refine ⟨condOf v, rfl, ?_, ?_, ?_, condOf_eq_signFlag v⟩
  all_goals
    unfold condOf
    by_cases h0 : v = 0#16
    · simp [h0]
    · cases h15 : v.getLsbD 15 <;> simp [h0]

theorem Effect.reg {i : Instr} {s t : State} (he : Effect i s t) {r : Reg} (h : i.dest ≠ some r) : t.reg r = s.reg r := by
  have hne : ∀ {dr}, i.dest = some dr → r ≠ dr := by rintro dr hd rfl; exact h hd
  cases he with
  | result hd => exact RegFile.get_set_ne s.regs _ (hne hd)
  | call _ hd => exact RegFile.get_set_ne s.regs _ (hne hd)
  | getc hi => exact RegFile.get_set_ne s.regs _ (hne (dest_of_isTrap hi (.inl rfl)))
  | inp hi => exact RegFile.get_set_ne s.regs _ (hne (dest_of_isTrap hi (.inr rfl)))
  | store => rw [memWrite_eq]; rfl
  | _ => rfl

/-- Settles O52: only a result, a call, GETC and IN write a register, and it is the destination. -/
theorem registerFrame : Obligations.RegisterFrame := by
  unfold Obligations.RegisterFrame
  intro i s t h r hr
  exact (effect_of_exec h).reg hr

theorem Effect.pc {i : Instr} {s t : State} (he : Effect i s t) (h : ¬ i.writesPc) : t.pc = s.pc := by
  cases he with
  | jump hi => exact absurd hi h
  | call hi => exact absurd hi h
  | store => rw [memWrite_eq]; rfl
  | _ => rfl

/-- Settles O53: only a jump and a call write PC. -/
theorem programCounterFrame : Obligations.ProgramCounterFrame := by
  unfold Obligations.ProgramCounterFrame
  intro i s t h hi
  exact (effect_of_exec h).pc hi

/-- An effect takes from the head of `inq` and appends to `outq`. -/
theorem Effect.console {i : Instr} {s t : State} (he : Effect i s t) : s.outq <+: t.outq ∧ t.inq <:+ s.inq := by
  have ho : s.outq <+: s.outq := List.prefix_rfl
  have hq' : s.inq <:+ s.inq := List.suffix_rfl
  cases he with
  | result _ _ hq => exact ⟨ho, hq⟩
  | wait _ hq => exact ⟨ho, hq⟩
  | jump => exact ⟨ho, hq'⟩
  | call => exact ⟨ho, hq'⟩
  | store _ hq => rw [memWrite_eq]; exact ⟨ho, hq⟩
  | getc _ hq => exact ⟨ho, hq⟩
  | out => exact ⟨List.prefix_append _ _, hq'⟩
  | string _ hq ho => exact ⟨ho, hq⟩
  | inp _ hq => exact ⟨List.prefix_append _ _, hq⟩
  | inpWait => exact ⟨List.prefix_append _ _, hq'⟩
  | halt => exact ⟨List.prefix_append _ _, hq'⟩
  | fatal => exact ⟨ho, hq'⟩

theorem Effect.outq {i : Instr} {s t : State} (he : Effect i s t) (h : ¬ i.writesConsole) : t.outq = s.outq := by
  simp only [Instr.writesConsole, not_or] at h
  obtain ⟨hout, hputs, hin, hputsp, hhalt⟩ := h
  cases he with
  | store => rw [memWrite_eq]; rfl
  | out hi => exact absurd hi hout
  | string hi => exact absurd hi (not_or.mpr ⟨hputs, hputsp⟩)
  | inp hi => exact absurd hi hin
  | inpWait hi => exact absurd hi hin
  | halt hi => exact absurd hi hhalt
  | _ => rfl

/-- Settles O54: a step's effect on the queues is its instruction's. -/
theorem consoleFrame : Obligations.ConsoleFrame := by
  unfold Obligations.ConsoleFrame
  refine ⟨fun s t h => ?_, fun i s t h hi => (effect_of_exec h).outq hi⟩
  have hself : s.outq <+: s.outq ∧ s.inq <:+ s.inq := ⟨List.prefix_rfl, List.suffix_rfl⟩
  rcases step_effect h with rfl | ⟨-, rfl | ⟨-, rfl⟩ | ⟨q, pc, i, hq, he⟩⟩
  · exact hself
  · exact hself
  · exact hself
  · exact ⟨he.console.1, he.console.2.trans hq⟩

/-! COND (R25): who writes it. -/

/-- An instruction that sets COND writes a result with its flag, or waits and leaves COND alone. -/
theorem Effect.cond_of_setsCond {i : Instr} {s t : State} (he : Effect i s t) (hp : s.pending = none)
    (hc : i.setsCond = true) :
    (t.pending = none → ∃ dr, i.dest = some dr ∧ t.cond = signFlag (t.reg dr)) ∧ (t.pending ≠ none → t.cond = s.cond) := by
  have hno : ¬ i.setsCond = false := by simp [hc]
  have htrap : ∀ {v}, ¬ i.isTrap v := fun h => hno (setsCond_of_isTrap h)
  cases he with
  | @result dr r q hd =>
    refine ⟨fun _ => ⟨dr, hd, ?_⟩, fun h => absurd hp h⟩
    rw [State.result_cond, State.result_reg_same, condOf_eq_signFlag]
  | wait => exact ⟨fun h => (Option.some_ne_none _ h).elim, fun _ => rfl⟩
  | jump _ h => exact absurd h hno
  | call _ _ h => exact absurd h hno
  | store h => exact absurd h hno
  | getc h => exact absurd h htrap
  | out h => exact absurd h htrap
  | string h => exact absurd h (not_or.mpr ⟨htrap, htrap⟩)
  | inp h => exact absurd h htrap
  | inpWait h => exact absurd h htrap
  | halt h => exact absurd h htrap
  | fatal _ h => exact absurd h hno

theorem Effect.cond {i : Instr} {s t : State} (he : Effect i s t) (hc : i.setsCond = false) (hg : ¬ i.isTrap 0x20#8)
    (hi : ¬ i.isTrap 0x23#8) : t.cond = s.cond := by
  cases he with
  | result _ h => rw [hc] at h; cases h
  | getc h => exact absurd h hg
  | inp h => exact absurd h hi
  | store => rw [memWrite_eq]; rfl
  | _ => rfl

/-- A byte taken into R0 sets COND where the open parameter says so. -/
theorem State.takeByte_cond_eq (s : State) (b : Byte) :
    (s.takeByte b).cond = if Config.trapInSetsFlags = true then signFlag ((s.takeByte b).reg .r0) else s.cond := by
  rw [State.takeByte_reg_r0, ← condOf_eq_signFlag]; rfl

/-- GETC and IN wait, or end by taking a byte; they have not touched COND before that. -/
theorem consoleRead_cases {i : Instr} {s t : State} (h : exec i s = .next t) (hi : i.isTrap 0x20#8 ∨ i.isTrap 0x23#8) :
    (t.pending ≠ none ∧ t.cond = s.cond) ∨
    (∃ (u : State) (b : Byte), u.pending = s.pending ∧ u.cond = s.cond ∧ t = u.takeByte b) := by
  rcases hi with hi | hi <;> obtain ⟨ig, he⟩ := exec_of_isTrap hi s
  · obtain rfl : getcRoutine s = t := Host.Outcome.next.inj (he.symm.trans h)
    rcases getcRoutine_cases s with ⟨-, ht⟩ | ⟨b, q, -, ht⟩
    · exact .inl (ht ▸ ⟨Option.some_ne_none _, rfl⟩)
    · exact .inr ⟨s.setInq q, b, rfl, rfl, ht⟩
  · obtain rfl : inByteRoutine (s.emit Config.inPrompt) = t := Host.Outcome.next.inj (he.symm.trans h)
    rcases inByteRoutine_cases (s.emit Config.inPrompt) with ⟨-, ht⟩ | ⟨b, q, -, ht⟩
    · exact .inl (ht ▸ ⟨Option.some_ne_none _, rfl⟩)
    · exact .inr ⟨((s.emit Config.inPrompt).setInq q).emit [b], b, rfl, rfl, ht⟩

/-- GETC and IN set COND, by the open parameter, when they have their byte. -/
theorem cond_of_consoleRead {i : Instr} {s t : State} (h : exec i s = .next t) (hp : s.pending = none)
    (hi : i.isTrap 0x20#8 ∨ i.isTrap 0x23#8) :
    t.cond = if t.pending = none ∧ Config.trapInSetsFlags = true then signFlag (t.reg .r0) else s.cond := by
  rcases consoleRead_cases h hi with ⟨hw, hc⟩ | ⟨u, b, hu, hc, rfl⟩
  · rw [hc, if_neg fun h => hw h.1]
  · simp only [State.takeByte_cond_eq, State.takeByte_pending, hu, hp, hc, true_and]

end Sys2Proof.Machine
end

section
/-! COND and the stop latch are not read on any data path: changing them before an instruction changes them after
it and nothing else (O16, O55). -/

namespace Sys2Proof.Machine

/-- The state with COND and the stop latch changed. -/
def State.mapFlags (g : Cond → Cond) (h : Bool → Bool) (s : State) : State :=
  { s with cond := g s.cond, stop := h s.stop }

/-- `u` is `t` with the latch changed, and with COND changed too unless it has been written since. -/
def FollowsFlags (g : Cond → Cond) (h : Bool → Bool) (t u : State) : Prop := u = t.mapFlags g h ∨ u = t.mapFlags id h

variable (g : Cond → Cond) (h : Bool → Bool)

theorem memRead_mapFlags (a : Word) (s : State) :
    memRead a (s.mapFlags g h) = (memRead a s).map fun r => (r.1, r.2.mapFlags g h) := by
  have hafter : afterRead (s.mapFlags g h) a = (afterRead s a).mapFlags g h := by
    unfold afterRead; split <;> rfl
  rw [memRead_eq, memRead_eq, hafter, Option.map_map]
  rfl

theorem memWrite_mapFlags (a v : Word) (s : State) : memWrite a v (s.mapFlags g h) = (memWrite a v s).mapFlags g h := by
  unfold memWrite; split <;> rfl

theorem stringLoop_mapFlags (bytes : Word → List Byte) (left : Word → Pending) (fuel : Nat) (a : Word) (s : State) :
    stringLoop bytes left fuel a (s.mapFlags g h) = (stringLoop bytes left fuel a s).mapFlags g h := by
  induction fuel generalizing a s with
  | zero => rfl
  | succ fuel ih =>
    cases hr : memRead a s with
    | none => simp only [stringLoop, memRead_mapFlags, hr]; rfl
    | some r =>
      obtain ⟨w, s'⟩ := r
      have hnext := ih (a + 1#16) (s'.emit (bytes w))
      simp only [stringLoop, memRead_mapFlags, hr, Option.map_some]
      split
      · rfl
      · exact hnext

theorem FollowsFlags.loadFrom (dr : Reg) (a : Word) (s : State) :
    FollowsFlags g h (loadFrom dr a s) (loadFrom dr a (s.mapFlags g h)) := by
  unfold Machine.loadFrom
  rw [memRead_mapFlags]
  cases memRead a s with
  | none => exact .inl rfl
  | some r => exact .inr rfl

theorem FollowsFlags.loadIndirect (dr : Reg) (a : Word) (s : State) :
    FollowsFlags g h (loadIndirect dr a s) (loadIndirect dr a (s.mapFlags g h)) := by
  unfold Machine.loadIndirect
  rw [memRead_mapFlags]
  cases memRead a s with
  | none => exact .inl rfl
  | some r => exact .loadFrom g h dr r.1 r.2

theorem storeIndirect_mapFlags (sr : Reg) (a : Word) (s : State) :
    storeIndirect sr a (s.mapFlags g h) = (storeIndirect sr a s).mapFlags g h := by
  unfold storeIndirect
  rw [memRead_mapFlags]
  cases memRead a s with
  | none => rfl
  | some r => exact memWrite_mapFlags g h r.1 (r.2.reg sr) r.2

/-- A byte taken into R0 writes COND or leaves it, by the open parameter. -/
theorem FollowsFlags.takeByte (s : State) (b : Byte) :
    FollowsFlags g h (s.takeByte b) ((s.mapFlags g h).takeByte b) := by
  unfold FollowsFlags State.takeByte
  cases Config.trapInSetsFlags
  · exact .inl rfl
  · exact .inr rfl

theorem FollowsFlags.getcRoutine (s : State) : FollowsFlags g h (getcRoutine s) (getcRoutine (s.mapFlags g h)) := by
  unfold Machine.getcRoutine consoleIn
  rw [show (s.mapFlags g h).inq = s.inq from rfl]
  cases s.inq with
  | nil => exact .inl rfl
  | cons b q => exact .takeByte g h (s.setInq q) b

theorem FollowsFlags.inByteRoutine (s : State) :
    FollowsFlags g h (inByteRoutine s) (inByteRoutine (s.mapFlags g h)) := by
  unfold Machine.inByteRoutine consoleIn
  rw [show (s.mapFlags g h).inq = s.inq from rfl]
  cases s.inq with
  | nil => exact .inl rfl
  | cons b q => exact .takeByte g h ((s.setInq q).emit [b]) b

theorem FollowsFlags.dispatchTrap (ig : BitVec 4) (v : BitVec 8) (s : State) :
    FollowsFlags g h (dispatchTrap ig v s) (dispatchTrap ig v (s.mapFlags g h)) := by
  unfold Machine.dispatchTrap
  split
  · exact .getcRoutine g h s
  · exact .inl rfl
  · exact .inl (stringLoop_mapFlags g h _ _ _ _ s)
  · exact .inByteRoutine g h (s.emit Config.inPrompt)
  · exact .inl (stringLoop_mapFlags g h _ _ _ _ s)
  · exact .inl rfl
  · exact .inl rfl

/-- Every instruction but BR is blind to COND, and every instruction to the stop latch. -/
theorem exec_mapFlags (i : Instr) (s : State) (hi : ¬ i.isBr ∨ g = id) :
    ∃ t u, exec i s = .next t ∧ exec i (s.mapFlags g h) = .next u ∧ FollowsFlags g h t u := by
  cases i with
  | addReg => exact ⟨_, _, rfl, rfl, .inr rfl⟩
  | addImm => exact ⟨_, _, rfl, rfl, .inr rfl⟩
  | andReg => exact ⟨_, _, rfl, rfl, .inr rfl⟩
  | andImm => exact ⟨_, _, rfl, rfl, .inr rfl⟩
  | not => exact ⟨_, _, rfl, rfl, .inr rfl⟩
  | lea => exact ⟨_, _, rfl, rfl, .inr rfl⟩
  | br n z p off9 =>
    rcases hi with hi | rfl
    · exact absurd ⟨n, z, p, off9, rfl⟩ hi
    · refine ⟨_, _, rfl, rfl, .inl ?_⟩
      rw [show (s.mapFlags id h).cond = s.cond from rfl]
      split <;> rfl
  | jmp => exact ⟨_, _, rfl, rfl, .inl rfl⟩
  | ret => exact ⟨_, _, rfl, rfl, .inl rfl⟩
  | jsr => exact ⟨_, _, rfl, rfl, .inl rfl⟩
  | jsrr =>
    refine ⟨_, _, rfl, rfl, .inl ?_⟩
    unfold callRegister
    split <;> rfl
  | ld => exact ⟨_, _, rfl, rfl, .loadFrom g h _ _ s⟩
  | ldr => exact ⟨_, _, rfl, rfl, .loadFrom g h _ _ s⟩
  | ldi => exact ⟨_, _, rfl, rfl, .loadIndirect g h _ _ s⟩
  | st => exact ⟨_, _, rfl, rfl, .inl (memWrite_mapFlags g h _ _ s)⟩
  | str => exact ⟨_, _, rfl, rfl, .inl (memWrite_mapFlags g h _ _ s)⟩
  | sti => exact ⟨_, _, rfl, rfl, .inl (storeIndirect_mapFlags g h _ _ s)⟩
  | trap ig v => exact ⟨_, _, rfl, rfl, .dispatchTrap g h ig v s⟩
  | getc => exact ⟨_, _, rfl, rfl, .getcRoutine g h s⟩
  | out => exact ⟨_, _, rfl, rfl, .inl rfl⟩
  | puts => exact ⟨_, _, rfl, rfl, .inl (stringLoop_mapFlags g h _ _ _ _ s)⟩
  | inp => exact ⟨_, _, rfl, rfl, .inByteRoutine g h (s.emit Config.inPrompt)⟩
  | putsp => exact ⟨_, _, rfl, rfl, .inl (stringLoop_mapFlags g h _ _ _ _ s)⟩
  | halt => exact ⟨_, _, rfl, rfl, .inl rfl⟩
  | rti => exact ⟨_, _, rfl, rfl, .inl rfl⟩
  | reserved => exact ⟨_, _, rfl, rfl, .inl rfl⟩

theorem Effect.stop {i : Instr} {s t : State} (he : Effect i s t) : t.stop = s.stop := by
  cases he with
  | store => rw [memWrite_eq]; rfl
  | _ => rfl

end Sys2Proof.Machine
end

section
/-! The two statements that rest on it. -/

namespace Sys2Proof.Machine

/-- Settles O16: a result and a byte taken write COND, and only BR is not blind to it. -/
theorem condIsWrittenAndReadOnlyAsListed : Obligations.CondIsWrittenAndReadOnlyAsListed := by
  unfold Obligations.CondIsWrittenAndReadOnlyAsListed
  refine ⟨fun i s t h hp hc => (effect_of_exec h).cond_of_setsCond hp hc, fun i s t h hp hi => cond_of_consoleRead h hp hi,
    fun i s t h hc hg hi => (effect_of_exec h).cond hc hg hi, fun i s c hi => ?_⟩
  obtain ⟨t, u, ht, hu, rfl | rfl⟩ := exec_mapFlags (fun _ => c) id i s (.inl hi)
  · exact ⟨t, ht, .inr hu⟩
  · exact ⟨t, ht, .inl hu⟩

/-- Settles O55: instructions are blind to the latch, a request sets it in each of its cases, and a step takes it. -/
theorem noInstructionTouchesTheStopLatch : Obligations.NoInstructionTouchesTheStopLatch := by
  unfold Obligations.NoInstructionTouchesTheStopLatch
  refine ⟨fun i s b => ?_, fun s hrun => ?_, fun s hrun hp hs => ?_⟩
  · obtain ⟨t, u, ht, hu, hf⟩ := exec_mapFlags id (fun _ => b) i s (.inr rfl)
    obtain rfl : u = { t with stop := b } := hf.elim id id
    exact ⟨t, ht, (effect_of_exec ht).stop, hu⟩
  · rcases State.requestStop_cases s with ⟨hr, -⟩ | ⟨-, -, -, h⟩ | ⟨-, -, h⟩
    · exact absurd hrun hr
    · rw [h]
    · rw [h]
  · rcases step_cases s with ⟨hr, -⟩ | ⟨-, -, -, h⟩ | ⟨p, -, hpend, -⟩ | ⟨⟨-, hstop, -⟩, -⟩
    · exact absurd hrun hr
    · exact ⟨_, h, rfl, rfl⟩
    · rw [hp] at hpend; cases hpend
    · rw [hs] at hstop; cases hstop

end Sys2Proof.Machine
end

section
/-! Waiting (O56, O57; spec/10_state.md R31, spec/60_exceptions.md R136). -/

namespace Sys2Proof.Machine

/-- With no byte delivered, an instruction in progress at KBDR waits on. -/
theorem resume_waits {p : Pending} {s : State} (hq : s.inq = []) (hk : pendingAtKbdr s.pc (some p) = true) :
    resume p s = .next (s.wait p) := by
  have hr : memRead kbdrAddr s = none := memRead_kbdr_nil hq
  have hloop : ∀ (bytes : Word → List Byte) (left : Word → Pending),
      stringLoop bytes left (stringFuel s) kbdrAddr s = s.wait (left kbdrAddr) := by
    intro bytes left
    rw [← stringLoop_one_more bytes left (readsBound_lt_stringFuel kbdrAddr s)]
    simp only [stringLoop, hr]
  cases p with
  | fetch =>
    have hpc : s.pc = kbdrAddr := of_decide_eq_true hk
    simp only [resume, fetchAndExecute, fetch_none.mpr ⟨hpc, hq⟩]
  | load dr => simp only [resume, loadFrom, hr]
  | ldiPointer dr => simp only [resume, loadIndirect, hr]
  | stiPointer sr => simp only [resume, storeIndirect, hr]
  | getc => simp only [resume, getcRoutine, consoleIn_none.mpr hq]
  | inByte => simp only [resume, inByteRoutine, consoleIn_none.mpr hq]
  | puts a => obtain rfl : a = kbdrAddr := of_decide_eq_true hk; exact congrArg _ (hloop plainBytes .puts)
  | putsp a => obtain rfl : a = kbdrAddr := of_decide_eq_true hk; exact congrArg _ (hloop packedBytes .putsp)

/-- Settles O56: the step resumes the instruction, which waits on in the same state. -/
theorem waitingCoreIsUnchanged : Obligations.WaitingCoreIsUnchanged := by
  unfold Obligations.WaitingCoreIsUnchanged
  intro s hs hp hstop hq
  have hrun := hs.running hp
  obtain ⟨p, hp'⟩ := Option.ne_none_iff_exists'.mp hp
  have hwait : (s.setPending none).wait p = s := State.setPending_eq_self hp'
  have hk : pendingAtKbdr s.pc (some p) = true := hp' ▸ hs.atKbdr
  rw [← hwait] at hq
  have hres := resume_waits (s := s.setPending none) hq hk
  rw [hwait] at hres
  simpa [step, hrun, hp', hstop] using hres

/-! A wait is transparent. -/

/-- The part of an instruction that waits, resumed with a byte, answers `u`: the state `t` it waits in has
nothing but the byte and the end of the wait added. -/
def ResumesTo (b : Byte) (t u : State) : Prop :=
  ∀ p, t.pending = some p → resume p ((t.setPending none).deliver b) = .next u

theorem ResumesTo.of_not_pending {b : Byte} {t u : State} (h : t.pending = none) : ResumesTo b t u := by
  intro p hp
  rw [h] at hp
  cases hp

/-- What resumes with the state as it was before the wait, resumes. -/
theorem ResumesTo.of_wait {b : Byte} {s u : State} {p : Pending} (hp : s.pending = none)
    (h : resume p (s.deliver b) = .next u) : ResumesTo b (s.wait p) u := by
  intro p' hp'
  cases hp'
  rwa [show (s.wait p).setPending none = s from State.setPending_eq_self (s := s) hp]

/-- With no byte delivered, a read gives KBSR's idle word 0x0000, or a word that a byte delivered does not change. -/
theorem memRead_deliver {a w : Word} {s s' : State} (hq : s.inq = []) (hr : memRead a s = some (w, s')) (b : Byte) :
    s' = s ∧ (w = 0#16 ∨ memRead a (s.deliver b) = some (w, s.deliver b)) := by
  rcases memRead_some hr with ⟨-, hw, rfl⟩ | ⟨-, c, q, hq', -⟩ | ⟨h1, h2, rfl, rfl⟩
  · exact ⟨rfl, .inl (hw.trans (if_pos hq))⟩
  · rw [hq] at hq'; cases hq'
  · exact ⟨rfl, .inr (memRead_ordinary ⟨h1, h2⟩)⟩

section
variable {s : State} (b : Byte) (hq : s.inq = []) (hp : s.pending = none)
include hq hp

theorem ResumesTo.loadFrom (dr : Reg) (a : Word) :
    ResumesTo b (loadFrom dr a s) (loadFrom dr a (s.deliver b)) := by
  rcases loadFrom_cases dr a s with ⟨hr, h⟩ | ⟨w, s', hr, h⟩ <;> rw [h]
  · obtain ⟨rfl, -⟩ := memRead_none.mp hr
    exact .of_wait hp rfl
  · obtain ⟨rfl, -⟩ := memRead_deliver hq hr b
    exact .of_not_pending hp

theorem ResumesTo.loadIndirect (dr : Reg) (a : Word) :
    ResumesTo b (loadIndirect dr a s) (loadIndirect dr a (s.deliver b)) := by
  rcases loadIndirect_cases dr a s with ⟨hr, h⟩ | ⟨ea, s', hr, h⟩ <;> rw [h]
  · obtain ⟨rfl, -⟩ := memRead_none.mp hr
    exact .of_wait hp rfl
  · obtain ⟨rfl, rfl | hd⟩ := memRead_deliver hq hr b
    · rw [Machine.loadFrom, memRead_ordinary (by decide)]
      exact .of_not_pending hp
    · simp only [Machine.loadIndirect, hd]
      exact .loadFrom b hq hp dr ea

theorem ResumesTo.storeIndirect (sr : Reg) (a : Word) :
    ResumesTo b (storeIndirect sr a s) (storeIndirect sr a (s.deliver b)) := by
  rcases storeIndirect_cases sr a s with ⟨hr, h⟩ | ⟨ea, s', hr, h⟩ <;> rw [h]
  · obtain ⟨rfl, -⟩ := memRead_none.mp hr
    exact .of_wait hp rfl
  · obtain ⟨rfl, -⟩ := memRead_deliver hq hr b
    rw [memWrite_eq]
    exact .of_not_pending hp

theorem ResumesTo.getcRoutine : ResumesTo b (getcRoutine s) (getcRoutine (s.deliver b)) := by
  rw [Machine.getcRoutine, consoleIn_none.mpr hq]
  exact .of_wait hp rfl

theorem ResumesTo.inByteRoutine : ResumesTo b (inByteRoutine s) (inByteRoutine (s.deliver b)) := by
  rw [Machine.inByteRoutine, consoleIn_none.mpr hq]
  exact .of_wait hp rfl

/-- A string routine that waits has read ordinary words only: KBSR's idle word ends a string. -/
theorem ResumesTo.stringLoop {bytes : Word → List Byte} {left : Word → Pending}
    (hl : ∀ a u, resume (left a) u = .next (stringLoop bytes left (stringFuel u) a u)) (fuel : Nat) (a : Word) :
    ResumesTo b (stringLoop bytes left fuel a s)
      (stringLoop bytes left (stringFuel (s.deliver b)) a (s.deliver b)) := by
  induction fuel generalizing a s with
  | zero => exact .of_wait hp (hl a (s.deliver b))
  | succ fuel ih =>
    rcases stringLoop_succ bytes left fuel a s with ⟨-, h⟩ | ⟨s', hr, h⟩ | ⟨w, s', hr, hw, h⟩ <;> rw [h]
    · exact .of_wait hp (hl a (s.deliver b))
    · obtain ⟨rfl, -⟩ := memRead_deliver hq hr b
      exact .of_not_pending hp
    · obtain ⟨rfl, hz | hd⟩ := memRead_deliver hq hr b
      · exact absurd hz hw
      · rw [stringLoop_next bytes left hd hw]
        exact @ih (s'.emit (bytes w)) hq hp (a + 1#16)

theorem ResumesTo.dispatchTrap (ig : BitVec 4) (v : BitVec 8) :
    ResumesTo b (dispatchTrap ig v s) (dispatchTrap ig v (s.deliver b)) := by
  unfold Machine.dispatchTrap
  split
  · exact .getcRoutine b hq hp
  · exact .of_not_pending hp
  · exact .stringLoop b hq hp (fun _ _ => rfl) _ _
  · exact .inByteRoutine (s := s.emit Config.inPrompt) b hq hp
  · exact .stringLoop b hq hp (fun _ _ => rfl) _ _
  · exact .of_not_pending hp
  · exact .of_not_pending hp

/-- An instruction that waits after its fetch is resumed as if its byte had been there. -/
theorem exec_resumesTo (i : Instr) :
    ∃ t u, exec i s = .next t ∧ exec i (s.deliver b) = .next u ∧ ResumesTo b t u := by
  cases i with
  | br n z p off9 =>
    refine ⟨_, _, rfl, rfl, .of_not_pending ?_⟩
    split <;> exact hp
  | jsrr =>
    refine ⟨_, _, rfl, rfl, .of_not_pending ?_⟩
    unfold callRegister
    split <;> exact hp
  | ld => exact ⟨_, _, rfl, rfl, .loadFrom b hq hp _ _⟩
  | ldr => exact ⟨_, _, rfl, rfl, .loadFrom b hq hp _ _⟩
  | ldi => exact ⟨_, _, rfl, rfl, .loadIndirect b hq hp _ _⟩
  | st => exact ⟨_, _, rfl, rfl, .of_not_pending (by rw [memWrite_eq]; exact hp)⟩
  | str => exact ⟨_, _, rfl, rfl, .of_not_pending (by rw [memWrite_eq]; exact hp)⟩
  | sti => exact ⟨_, _, rfl, rfl, .storeIndirect b hq hp _ _⟩
  | trap ig v => exact ⟨_, _, rfl, rfl, .dispatchTrap b hq hp ig v⟩
  | getc => exact ⟨_, _, rfl, rfl, .getcRoutine b hq hp⟩
  | puts => exact ⟨_, _, rfl, rfl, .dispatchTrap b hq hp 0#4 0x22#8⟩
  | inp => exact ⟨_, _, rfl, rfl, .dispatchTrap b hq hp 0#4 0x23#8⟩
  | putsp => exact ⟨_, _, rfl, rfl, .dispatchTrap b hq hp 0#4 0x24#8⟩
  | _ => exact ⟨_, _, rfl, rfl, .of_not_pending hp⟩

/-- The same for the fetch: a fetch of KBSR's idle word is a branch never taken, which does not wait. -/
theorem fetchAndExecute_resumes {t : State} {p : Pending} (h : fetchAndExecute s = .next t) (ht : t.pending = some p) :
    resume p ((t.setPending none).deliver b) = fetchAndExecute (s.deliver b) := by
  rcases fetchAndExecute_cases s with ⟨-, -, hw⟩ | ⟨w, s', hr, he⟩
  · cases hw.symm.trans h
    cases ht
    rw [show (s.wait .fetch).setPending none = s from State.setPending_eq_self (s := s) hp]
    rfl
  · obtain ⟨rfl, hd⟩ := memRead_deliver hq hr b
    obtain ⟨t', u, ht', hu, hres⟩ := exec_resumesTo (s := s'.setPc (s'.pc + 1#16)) b hq hp (decode w)
    cases (ht'.symm.trans (he.symm.trans h))
    rcases hd with rfl | hd
    · have hidle : exec (decode 0#16) (s'.setPc (s'.pc + 1#16)) = .next (s'.setPc (s'.pc + 1#16)) := rfl
      cases hidle.symm.trans ht'
      rw [State.setPc_pending, hp] at ht
      cases ht
    · rw [hres p ht, ← hu, fetchAndExecute, fetch_some.mpr ⟨s'.deliver b, hd, rfl⟩]
      rfl

end

/-- An instruction that waits leaves the core running. -/
theorem Effect.run_of_pending {i : Instr} {s t : State} (he : Effect i s t) (hp : s.pending = none)
    (ht : t.pending ≠ none) : t.run = s.run := by
  cases he with
  | store => rw [memWrite_eq]; rfl
  | halt => exact absurd hp ht
  | fatal => exact absurd hp ht
  | _ => rfl

/-- Settles O57: the step after the byte resumes the instruction, and without the wait the step fetches it. -/
theorem waitingIsTransparent : Obligations.WaitingIsTransparent := by
  unfold Obligations.WaitingIsTransparent
  intro s t b ⟨hrun, hstop, hp⟩ hq h ht
  have hfetch : ∀ u : State, Fetching u → step u = fetchAndExecute u := by
    intro u ⟨hr, hs, hpend⟩
    simp [step, hr, hs, hpend]
  rw [hfetch s ⟨hrun, hstop, hp⟩] at h
  rw [hfetch (s.deliver b) ⟨hrun, hstop, hp⟩]
  obtain ⟨p, htp⟩ := Option.ne_none_iff_exists'.mp ht
  have hrest : t.run = .running ∧ t.stop = false := by
    rcases fetchAndExecute_effect h with ⟨-, rfl⟩ | ⟨q, pc, i, -, he⟩
    · exact ⟨hrun, hstop⟩
    · exact ⟨(he.run_of_pending hp ht).trans hrun, he.stop.trans hstop⟩
  obtain ⟨htrun, htstop⟩ := hrest
  have hstep : step (t.deliver b) = resume p ((t.setPending none).deliver b) := by
    simp [step, htrun, htstop, htp, State.deliver, State.setInq, State.setPending]
  rw [hstep]
  exact fetchAndExecute_resumes b hq hp h htp

end Sys2Proof.Machine
end

/-! SUPPORT. Memory, the keyboard device and the load port (spec/20_memory.md): what an access, a store of an
instruction and an image do, said once, and the statements about them. -/

section
/-! The access primitives (O46 to O49; spec/20_memory.md R43 to R47). -/

namespace Sys2Proof.Machine

theorem kbsrRead_of_inq_ne_nil {s : State} (h : s.inq ≠ []) : kbsrRead s = kbsrReady := if_neg h

theorem kbsrRead_of_inq_nil {s : State} (h : s.inq = []) : kbsrRead s = kbsrIdle := if_pos h

theorem zext8_toNat (b : Byte) : (zext8 b).toNat = b.toNat := by
  unfold zext8
  exact BitVec.toNat_setWidth_of_le (by omega)

/-- Settles O46: such an address is ordinary storage, whose read depends on memory only. -/
theorem ordinaryReadHasNoEffect : Obligations.OrdinaryReadHasNoEffect := by
  unfold Obligations.OrdinaryReadHasNoEffect
  intro a s hsr hdr
  refine ⟨memRead_ordinary ⟨hsr, hdr⟩, fun t ht => ?_⟩
  have hword : t.word a = s.word a := congrArg (Memory.read · a.toNat) ht
  rw [← hword]
  exact memRead_ordinary ⟨hsr, hdr⟩

/-- Settles O47: a read of KBDR takes the head of the queue, and the next read the head of the rest. -/
theorem keyboardDataReadConsumes : Obligations.KeyboardDataReadConsumes := by
  unfold Obligations.KeyboardDataReadConsumes
  refine ⟨fun s b q hq => ?_, fun s hq => memRead_kbdr_nil hq, fun s b c q hq => ?_⟩
  · exact ⟨zext8 b, memRead_kbdr_cons hq, zext8_toNat b⟩
  · have hnext : (s.setInq (c :: q)).inq = c :: q := rfl
    exact ⟨zext8 b, zext8 c, _, memRead_kbdr_cons hq, memRead_kbdr_cons hnext, zext8_toNat b, zext8_toNat c⟩

/-- Settles O48: the status word is one of two constants, by whether the queue is empty. -/
theorem keyboardStatusReadPolls : Obligations.KeyboardStatusReadPolls := by
  unfold Obligations.KeyboardStatusReadPolls
  refine ⟨fun s => ⟨kbsrRead s, memRead_kbsr s, ?_⟩, fun s b hq => ⟨kbsrReady, ?_, ?_⟩⟩
  · by_cases hq : s.inq = []
    · rw [kbsrRead_of_inq_nil hq]
      exact ⟨by simp [hq, kbsrIdle], by decide⟩
    · rw [kbsrRead_of_inq_ne_nil hq]
      exact ⟨by simp [hq, kbsrReady], by decide⟩
  · rw [memRead_kbsr, kbsrRead_of_inq_ne_nil hq]
  · rw [memRead_kbsr, kbsrRead_of_inq_ne_nil (by simp)]

/-- Settles O49: an ordinary write is the memory list's write, a device write is none. -/
theorem ordinaryWriteChangesOneWord : Obligations.OrdinaryWriteChangesOneWord := by
  unfold Obligations.OrdinaryWriteChangesOneWord
  refine ⟨fun s a v hm hsr hdr => ⟨?_, fun b hb => ?_, memWrite_eq a v s, memWrite_wf hm a v⟩,
    fun s a v ha => memWrite_device ha v s⟩
  · rw [memWrite_word hm, if_pos ⟨rfl, hsr, hdr⟩]
  · rw [memWrite_word hm, if_neg fun h => hb h.1]

end Sys2Proof.Machine
end

section
/-! The memory an instruction changes, and the fetch that sees it (O50, O51; spec/20_memory.md R55, R58). -/

namespace Sys2Proof.Machine

/-- An instruction with a store address writes its source register's word there, after a pointer read that may have
taken a byte. -/
theorem exec_of_storeTarget {i : Instr} {s : State} {a : Word} (h : i.storeTarget s = some a) :
    ∃ sr q, i.storeSource = some sr ∧ exec i s = .next (memWrite a (s.reg sr) (s.setInq q)) := by
  cases i with
  | st sr off9 => cases h; exact ⟨sr, s.inq, rfl, rfl⟩
  | str sr base off6 => cases h; exact ⟨sr, s.inq, rfl, rfl⟩
  | sti sr off9 =>
    obtain ⟨⟨ea, s'⟩, hr, rfl⟩ := Option.map_eq_some_iff.mp h
    obtain ⟨q, -, rfl⟩ := memRead_inq hr
    refine ⟨sr, q, rfl, ?_⟩
    simp only [exec, execSti, storeIndirect, hr, State.setInq_reg]
  | _ => cases h

theorem loadFrom_mem (dr : Reg) (a : Word) (s : State) : (loadFrom dr a s).mem = s.mem := by
  obtain ⟨q, -, ⟨r, h⟩ | h⟩ := loadFrom_effect dr a s <;> rw [h] <;> rfl

theorem loadIndirect_mem (dr : Reg) (a : Word) (s : State) : (loadIndirect dr a s).mem = s.mem := by
  rcases loadIndirect_cases dr a s with ⟨-, h⟩ | ⟨ea, s', hr, h⟩ <;> rw [h]
  · rfl
  · obtain ⟨q, -, rfl⟩ := memRead_inq hr
    exact loadFrom_mem dr ea (s.setInq q)

theorem stringLoop_mem (bytes : Word → List Byte) (left : Word → Pending) (fuel : Nat) (a : Word) (s : State) :
    (stringLoop bytes left fuel a s).mem = s.mem := by
  obtain ⟨q, o, p, h⟩ := stringLoop_frame bytes left fuel a s
  rw [h]

theorem getcRoutine_mem (s : State) : (getcRoutine s).mem = s.mem := by
  rcases getcRoutine_cases s with ⟨-, h⟩ | ⟨b, q, -, h⟩ <;> rw [h] <;> rfl

theorem inByteRoutine_mem (s : State) : (inByteRoutine s).mem = s.mem := by
  rcases inByteRoutine_cases s with ⟨-, h⟩ | ⟨b, q, -, h⟩ <;> rw [h] <;> rfl

/-- No TRAP stores, whatever its vector. -/
theorem dispatchTrap_mem (ig : BitVec 4) (v : BitVec 8) (s : State) : (dispatchTrap ig v s).mem = s.mem := by
  rcases Laws.vector_cases v with (rfl | rfl | rfl | rfl | rfl | rfl) | hv
  · exact getcRoutine_mem s
  · rfl
  · exact stringLoop_mem _ _ _ _ s
  · exact inByteRoutine_mem (s.emit Config.inPrompt)
  · exact stringLoop_mem _ _ _ _ s
  · rfl
  · rw [Laws.dispatchTrap_unrecognised ig s hv]; rfl

/-- An instruction with no store address leaves memory alone: it stores nothing, or its pointer read waits. -/
theorem exec_mem_of_storeTarget_none {i : Instr} {s t : State} (he : exec i s = .next t) (h : i.storeTarget s = none) :
    t.mem = s.mem := by
  cases i <;> cases he
  case st => cases h
  case str => cases h
  case sti sr off9 =>
    have hr : memRead (pcRel s off9) s = none := Option.map_eq_none_iff.mp h
    simp only [storeIndirect, hr, State.wait_mem]
  case br => split <;> rfl
  case jsrr => unfold callRegister; split <;> rfl
  case ld => exact loadFrom_mem _ _ s
  case ldr => exact loadFrom_mem _ _ s
  case ldi => exact loadIndirect_mem _ _ s
  case trap ig v => exact dispatchTrap_mem ig v s
  case getc => exact dispatchTrap_mem 0#4 0x20#8 s
  case puts => exact dispatchTrap_mem 0#4 0x22#8 s
  case inp => exact dispatchTrap_mem 0#4 0x23#8 s
  case putsp => exact dispatchTrap_mem 0#4 0x24#8 s
  all_goals rfl

/-- Settles O51: a store is one `memWrite` at its address, and every other instruction leaves the memory list alone. -/
theorem memoryFrame : Obligations.MemoryFrame := by
  unfold Obligations.MemoryFrame
  refine ⟨fun i s t a hm he ha b hb => ?_, fun i s t he ha b => ?_⟩
  · obtain ⟨sr, q, -, hst⟩ := exec_of_storeTarget ha
    cases hst.symm.trans he
    rw [memWrite_word (s := s.setInq q) hm, if_neg fun h => hb h.1, State.setInq_word]
  · exact congrArg (Memory.read · b.toNat) (exec_mem_of_storeTarget_none he ha)

/-- A fetch from ordinary storage runs the word at PC, with PC incremented. -/
theorem step_of_fetching_ordinary {s : State} (h : Fetching s) (ho : ordinary s.pc) :
    step s = exec (decode (s.word s.pc)) (s.setPc (s.pc + 1#16)) := by
  obtain ⟨hrun, hstop, hp⟩ := h
  have hfetch : fetch s = some (s.word s.pc, s.setPc (s.pc + 1#16)) := fetch_some.mpr ⟨s, memRead_ordinary ho, rfl⟩
  simp [step, hrun, hstop, hp, fetchAndExecute, hfetch]

/-- Settles O50: the store leaves PC and the core's readiness to fetch as they were, and the fetch reads the word
stored. -/
theorem storeIsSeenByTheNextFetch : Obligations.StoreIsSeenByTheNextFetch := by
  unfold Obligations.StoreIsSeenByTheNextFetch
  intro i s t sr hs hm ho hsrc ha he
  obtain ⟨sr', q, hsrc', hst⟩ := exec_of_storeTarget ha
  cases hsrc.symm.trans hsrc'
  cases hst.symm.trans he
  rw [memWrite_ordinary ho]
  have hword : ((s.setInq q).setWord s.pc (s.reg sr)).word s.pc = s.reg sr := by
    rw [State.word_setWord (s := s.setInq q) hm, if_pos rfl]
  have hstep := step_of_fetching_ordinary (s := (s.setInq q).setWord s.pc (s.reg sr)) hs ho
  rw [State.setWord_pc, State.setInq_pc, hword] at hstep
  exact hstep

end Sys2Proof.Machine
end

section
/-! The load port (O58; spec/20_memory.md R49, R57). -/

namespace Sys2Proof.Machine

/-- The words of an image leave every address outside it alone. -/
theorem read_loadWords_outside {ws : List Word} {a b : Nat} {m : Memory} (h : a + ws.length ≤ 65536)
    (hm : Memory.wf m = true) (hb : b < a ∨ a + ws.length ≤ b) : Memory.read (loadWords a ws m) b = Memory.read m b := by
  induction ws generalizing a m with
  | nil => rfl
  | cons w ws ih =>
    rw [List.length_cons] at h hb
    rw [loadWords, ih (by omega) (Memory.wf_write w (by omega) hm) (by omega), Memory.read_write hm, if_neg (by omega)]

/-- The words of an image land one per address. -/
theorem read_loadWords_inside {ws : List Word} {a k : Nat} {w : Word} {m : Memory} (h : a + ws.length ≤ 65536)
    (hm : Memory.wf m = true) (hk : ws[k]? = some w) : Memory.read (loadWords a ws m) (a + k) = w := by
  induction ws generalizing a k m with
  | nil => cases hk
  | cons w' ws ih =>
    rw [List.length_cons] at h
    have hm' : Memory.wf (Memory.write m a w') = true := Memory.wf_write w' (by omega) hm
    cases k with
    | zero =>
      cases hk
      rw [loadWords, read_loadWords_outside (by omega) hm' (by omega), Memory.read_write hm, if_pos (Nat.add_zero a)]
    | succ k =>
      rw [loadWords, show a + (k + 1) = a + 1 + k by omega]
      exact ih (by omega) hm' hk

/-- A word is its high byte before its low byte (R49). -/
theorem highByte_append_lowByte (w : Word) : highByte w ++ lowByte w = w := by
  unfold highByte lowByte
  rw [BitVec.extractLsb'_append_extractLsb'_eq_extractLsb' (Nat.zero_add 8).symm]
  exact Laws.extract_all w

/-- The words of big-endian bytes. -/
theorem imageWords_flatMap_bytes (ws : List Word) : imageWords (ws.flatMap fun w => [highByte w, lowByte w]) = some ws := by
  induction ws with
  | nil => rfl
  | cons w ws ih =>
    simp only [List.flatMap_cons, List.cons_append, List.nil_append, imageWords, ih, highByte_append_lowByte]

/-- An odd number of bytes ends in a word cut short. -/
theorem imageWords_of_odd_length : ∀ {bs : List Byte}, bs.length % 2 = 1 → imageWords bs = none
  | [], h => by simp at h
  | [_], _ => rfl
  | _ :: _ :: bs, h => by
    have hrest : imageWords bs = none := imageWords_of_odd_length (by simp only [List.length_cons] at h; omega)
    simp only [imageWords, hrest]

/-- Settles O58: a load that fits is `loadWords` on the memory list alone, and no word of it wraps. -/
theorem loadImagePlacesTheWords : Obligations.LoadImagePlacesTheWords := by
  unfold Obligations.LoadImagePlacesTheWords
  refine ⟨fun origin ws s hm hfit => ⟨_, if_pos hfit, rfl, loadWords_wf hfit hm, fun k w hk => ?_, fun a ha => ?_⟩,
    fun origin ws s hbig => if_neg (by omega), imageWords_flatMap_bytes, fun bs => imageWords_of_odd_length⟩
  · have hlt : k < ws.length := (List.getElem?_eq_some_iff.mp hk).1
    have haddr : (origin + BitVec.ofNat 16 k).toNat = origin.toNat + k := by
      rw [BitVec.toNat_add, BitVec.toNat_ofNat]; omega
    rw [State.word, haddr]
    exact read_loadWords_inside hfit hm hk
  · exact read_loadWords_outside hfit hm ha

end Sys2Proof.Machine
end

/-! SUPPORT. The encoding (spec/30_encoding.md): what a word has in common with the word of an instruction, format by
format, and the statements about the decoder and the encoder derived from it. -/

section
/-! The agreement of a word with a value on a mask, field by field. -/

namespace Sys2Proof.Laws

open BitVec (allOnes ofBool)

/-- The bits of `x` from `s` on agree with `v` on the mask `m`. -/
def Matches {n : Nat} (x : Word) (s : Nat) (m v : BitVec n) : Prop := x.extractLsb' s n &&& m = v &&& m

theorem matches_word {x m v : Word} : Matches x 0 m v ↔ x &&& m = v &&& m := by
  rw [Matches, BitVec.extractLsb'_eq_self]

theorem append_eq_append_iff {m n : Nat} {a b : BitVec m} {c d : BitVec n} : a ++ c = b ++ d ↔ a = b ∧ c = d := by
  constructor
  · intro h
    have hhigh := congrArg (BitVec.extractLsb' n m) h
    have hlow := congrArg (BitVec.extractLsb' 0 n) h
    rw [BitVec.extractLsb'_append_eq_left, BitVec.extractLsb'_append_eq_left] at hhigh
    rw [BitVec.extractLsb'_append_eq_right, BitVec.extractLsb'_append_eq_right] at hlow
    exact ⟨hhigh, hlow⟩
  · rintro ⟨rfl, rfl⟩
    rfl

section
variable {m n : Nat} {x : Word} {s : Nat}

theorem matches_append {p a : BitVec m} {q b : BitVec n} :
    Matches x s (p ++ q) (a ++ b) ↔ Matches x (s + n) p a ∧ Matches x s q b := by
  unfold Matches
  rw [← BitVec.extractLsb'_append_extractLsb'_eq_extractLsb' rfl, BitVec.and_append, BitVec.and_append,
    append_eq_append_iff]

/-- A field that the format uses. -/
theorem matches_allOnes {v : BitVec n} : Matches x s (allOnes n) v ↔ x.extractLsb' s n = v := by
  rw [Matches, BitVec.and_allOnes, BitVec.and_allOnes]

/-- A field that the format does not use. -/
theorem matches_zero {v : BitVec n} : Matches x s 0#n v := by
  rw [Matches, BitVec.and_zero, BitVec.and_zero]

end

theorem reg_bits_ofBits : ∀ b : BitVec 3, (Reg.ofBits b).bits = b := by decide

theorem opcode_bits_ofBits : ∀ b : BitVec 4, (Opcode.ofBits b).bits = b := by decide

theorem eq_reg_bits {b : BitVec 3} {r : Reg} : b = r.bits ↔ Reg.ofBits b = r :=
  ⟨fun h => h ▸ reg_ofBits_bits r, fun h => h ▸ (reg_bits_ofBits b).symm⟩

theorem eq_opcode_bits {b : BitVec 4} {o : Opcode} : b = o.bits ↔ Opcode.ofBits b = o :=
  ⟨fun h => h ▸ opcode_ofBits_bits o, fun h => h ▸ (opcode_bits_ofBits b).symm⟩

theorem eq_ofBool : ∀ (y : BitVec 1) (b : Bool), y = ofBool b ↔ (y == 1#1) = b := by decide

theorem extract_eq_ofBool {x : Word} {k : Nat} {b : Bool} : x.extractLsb' k 1 = ofBool b ↔ x.getLsbD k = b := by
  rw [BitVec.getLsbD_eq_extractLsb', eq_ofBool]

end Sys2Proof.Laws
end

section
/-! The formats of R63, as the fields a word shares with an instruction of the format. -/

namespace Sys2Proof.Laws

open BitVec (allOnes ofBool)

variable {x : Word} {o : Opcode}

theorem format_threeRegisters {a b c : Reg} :
    Matches x 0 (allOnes 4 ++ (allOnes 3 ++ (allOnes 3 ++ ((allOnes 1 ++ 0#2) ++ allOnes 3))))
      (o.bits ++ (a.bits ++ (b.bits ++ ((ofBool false ++ 0#2) ++ c.bits)))) ↔
    opcodeOf x = o ∧ regA x = a ∧ regB x = b ∧ x.getLsbD 5 = false ∧ regC x = c := by
  simp only [matches_append, matches_allOnes, matches_zero, eq_opcode_bits, eq_reg_bits, extract_eq_ofBool, and_true]
  rfl

theorem format_immediate {a b : Reg} {f : BitVec 5} :
    Matches x 0 (allOnes 4 ++ (allOnes 3 ++ (allOnes 3 ++ (allOnes 1 ++ allOnes 5))))
      (o.bits ++ (a.bits ++ (b.bits ++ (ofBool true ++ f)))) ↔
    opcodeOf x = o ∧ regA x = a ∧ regB x = b ∧ x.getLsbD 5 = true ∧ imm5Of x = f := by
  simp only [matches_append, matches_allOnes, eq_opcode_bits, eq_reg_bits, extract_eq_ofBool]
  rfl

theorem format_twoRegisters {a b : Reg} {f : BitVec 6} :
    Matches x 0 (allOnes 4 ++ (allOnes 3 ++ (allOnes 3 ++ 0#6))) (o.bits ++ (a.bits ++ (b.bits ++ f))) ↔
    opcodeOf x = o ∧ regA x = a ∧ regB x = b := by
  simp only [matches_append, matches_allOnes, matches_zero, eq_opcode_bits, eq_reg_bits, and_true]
  rfl

theorem format_baseOffset {a b : Reg} {f : BitVec 6} :
    Matches x 0 (allOnes 4 ++ (allOnes 3 ++ (allOnes 3 ++ allOnes 6))) (o.bits ++ (a.bits ++ (b.bits ++ f))) ↔
    opcodeOf x = o ∧ regA x = a ∧ regB x = b ∧ off6Of x = f := by
  simp only [matches_append, matches_allOnes, eq_opcode_bits, eq_reg_bits]
  rfl

theorem format_registerOffset {a : Reg} {f : BitVec 9} :
    Matches x 0 (allOnes 4 ++ (allOnes 3 ++ allOnes 9)) (o.bits ++ (a.bits ++ f)) ↔
    opcodeOf x = o ∧ regA x = a ∧ off9Of x = f := by
  simp only [matches_append, matches_allOnes, eq_opcode_bits, eq_reg_bits]
  rfl

theorem format_branch {n z p : Bool} {f : BitVec 9} :
    Matches x 0 (allOnes 4 ++ (allOnes 1 ++ (allOnes 1 ++ (allOnes 1 ++ allOnes 9))))
      (o.bits ++ (ofBool n ++ (ofBool z ++ (ofBool p ++ f)))) ↔
    opcodeOf x = o ∧ x.getLsbD 11 = n ∧ x.getLsbD 10 = z ∧ x.getLsbD 9 = p ∧ off9Of x = f := by
  simp only [matches_append, matches_allOnes, eq_opcode_bits, extract_eq_ofBool]
  rfl

theorem format_base {b : Reg} :
    Matches x 0 (allOnes 4 ++ (0#3 ++ (allOnes 3 ++ 0#6))) (o.bits ++ (0#3 ++ (b.bits ++ 0#6))) ↔
    opcodeOf x = o ∧ regB x = b := by
  simp only [matches_append, matches_allOnes, matches_zero, eq_opcode_bits, eq_reg_bits, true_and, and_true]
  rfl

theorem format_jsr {f : BitVec 11} :
    Matches x 0 (allOnes 4 ++ (allOnes 1 ++ allOnes 11)) (o.bits ++ (ofBool true ++ f)) ↔
    opcodeOf x = o ∧ x.getLsbD 11 = true ∧ off11Of x = f := by
  simp only [matches_append, matches_allOnes, eq_opcode_bits, extract_eq_ofBool]
  rfl

theorem format_jsrr {b : Reg} :
    Matches x 0 (allOnes 4 ++ ((allOnes 1 ++ 0#2) ++ (allOnes 3 ++ 0#6)))
      (o.bits ++ ((ofBool false ++ 0#2) ++ (b.bits ++ 0#6))) ↔
    opcodeOf x = o ∧ x.getLsbD 11 = false ∧ regB x = b := by
  simp only [matches_append, matches_allOnes, matches_zero, eq_opcode_bits, eq_reg_bits, extract_eq_ofBool, and_true]
  rfl

theorem format_trap {ig : BitVec 4} {v : BitVec 8} :
    Matches x 0 (allOnes 4 ++ (allOnes 4 ++ allOnes 8)) (o.bits ++ (ig ++ v)) ↔
    opcodeOf x = o ∧ x.extractLsb' 8 4 = ig ∧ vectOf x = v := by
  simp only [matches_append, matches_allOnes, eq_opcode_bits]
  rfl

theorem format_routine {v : BitVec 8} :
    Matches x 0 (allOnes 4 ++ (0#4 ++ allOnes 8)) (o.bits ++ (0#4 ++ v)) ↔ opcodeOf x = o ∧ vectOf x = v := by
  simp only [matches_append, matches_allOnes, matches_zero, eq_opcode_bits, true_and]
  rfl

theorem format_ignored {f : BitVec 12} :
    Matches x 0 (allOnes 4 ++ allOnes 12) (o.bits ++ f) ↔ opcodeOf x = o ∧ x.extractLsb' 0 12 = f := by
  simp only [matches_append, matches_allOnes, eq_opcode_bits]
  rfl

end Sys2Proof.Laws
end

section
/-! The decoder inverted: which words decode to an instruction. -/

namespace Sys2Proof.Laws

theorem decodeJmp_opcode (b : Reg) : (decodeJmp b).opcode = .jmp := by
  unfold decodeJmp
  split <;> rfl

theorem decodeTrap_opcode (ig : BitVec 4) (v : BitVec 8) : (decodeTrap ig v).opcode = .trap := by
  unfold decodeTrap
  split <;> rfl

theorem decodeJmp_wf (b : Reg) : (decodeJmp b).wf = true := by
  unfold decodeJmp
  split
  · rfl
  · next h => exact decide_eq_true h

theorem recognisedVector_eq_false {v : BitVec 8} : recognisedVector v = false ↔ v.toNat < 0x20 ∨ 0x25 < v.toNat := by
  simp only [recognisedVector, Bool.or_eq_false_iff, decide_eq_false_iff_not, ← BitVec.toNat_inj, BitVec.toNat_ofNat]
  omega

theorem decodeTrap_wf (ig : BitVec 4) (v : BitVec 8) : (decodeTrap ig v).wf = true := by
  rcases vector_cases v with (rfl | rfl | rfl | rfl | rfl | rfl) | hv
  case inr =>
    rw [decodeTrap_unrecognised ig hv, Instr.wf, recognisedVector_eq_false.mpr hv]
    rfl
  all_goals rfl

/-- A TRAP word is TRAP with its own vector, under one of its names (R73). -/
theorem decodeTrap_core (ig : BitVec 4) (v : BitVec 8) : ∃ ig', (decodeTrap ig v).core = .trap ig' v := by
  rcases vector_cases v with (rfl | rfl | rfl | rfl | rfl | rfl) | hv
  case inr => exact ⟨ig, by rw [decodeTrap_unrecognised ig hv]; rfl⟩
  all_goals exact ⟨0#4, rfl⟩

theorem vector_eq_of_decodeTrap_eq {ig ig' : BitVec 4} {v v' : BitVec 8} (h : decodeTrap ig v = decodeTrap ig' v') :
    v = v' := by
  obtain ⟨a, ha⟩ := decodeTrap_core ig v
  obtain ⟨b, hb⟩ := decodeTrap_core ig' v'
  rw [h, hb] at ha
  cases ha
  rfl

theorem decodeTrap_eq_routine {i : Instr} {ig : BitVec 4} {v v' : BitVec 8} (hi : ∀ ig', decodeTrap ig' v' = i) :
    decodeTrap ig v = i ↔ v = v' :=
  ⟨fun h => vector_eq_of_decodeTrap_eq (h.trans (hi ig).symm), fun h => h ▸ hi ig⟩

theorem decodeTrap_eq_trap {ig ig' : BitVec 4} {v v' : BitVec 8} (hv : recognisedVector v' = false) :
    decodeTrap ig v = .trap ig' v' ↔ ig = ig' ∧ v = v' := by
  have hdec : ∀ ig, decodeTrap ig v' = .trap ig v' := fun ig =>
    decodeTrap_unrecognised ig (recognisedVector_eq_false.mp hv)
  constructor
  · intro h
    obtain rfl := vector_eq_of_decodeTrap_eq (h.trans (hdec ig').symm)
    cases (hdec ig).symm.trans h
    exact ⟨rfl, rfl⟩
  · rintro ⟨rfl, rfl⟩
    exact hdec ig

theorem decodeJmp_eq_jmp {b b' : Reg} (hb : b' ≠ .r7) : decodeJmp b = .jmp b' ↔ b = b' := by
  unfold decodeJmp
  split
  · next h => simp [h, hb.symm]
  · simp

theorem decodeJmp_eq_ret {b : Reg} : decodeJmp b = .ret ↔ b = .r7 := by
  unfold decodeJmp
  split <;> simp [*]

theorem decode_wf_opcode (w : Word) : (decode w).wf = true ∧ (decode w).opcode = opcodeOf w := by
  unfold decode
  cases opcodeOf w
  case jmp => exact ⟨decodeJmp_wf _, decodeJmp_opcode _⟩
  case trap => exact ⟨decodeTrap_wf _ _, decodeTrap_opcode _ _⟩
  case add => dsimp only; split <;> exact ⟨rfl, rfl⟩
  case and => dsimp only; split <;> exact ⟨rfl, rfl⟩
  case jsr => dsimp only; split <;> exact ⟨rfl, rfl⟩
  all_goals exact ⟨rfl, rfl⟩

/-- A recognised vector's routine: the opcode and the vector alone select it. -/
theorem decode_eq_routine {i : Instr} {v : BitVec 8} {x : Word} (hi : ∀ ig, decodeTrap ig v = i)
    (hused : i.usedBits = 0xF0FF#16) (hword : encode i = Opcode.trap.bits ++ (0#4 ++ v)) :
    opcodeOf x = .trap ∧ decode x = i ↔ Matches x 0 i.usedBits (encode i) := by
  rw [hused, hword]
  refine Iff.trans (and_congr_right fun ho => ?_) format_routine.symm
  rw [decode, ho]
  exact decodeTrap_eq_routine hi

/-- A word decodes to a well-formed instruction exactly when it agrees with the instruction's own word on the bits that the
format uses: the fields the decoder reads are those of the format. -/
theorem decode_eq_iff {i : Instr} (hi : i.wf = true) {x : Word} :
    decode x = i ↔ x &&& i.usedBits = encode i &&& i.usedBits := by
  have hop : decode x = i ↔ opcodeOf x = i.opcode ∧ decode x = i :=
    (and_iff_right_of_imp fun h => h ▸ (decode_wf_opcode x).2.symm).symm
  rw [hop, ← matches_word]
  cases i with
  | addReg | andReg =>
    refine Iff.trans (and_congr_right fun ho => ?_) format_threeRegisters.symm
    rw [decode, ho]
    cases x.getLsbD 5 <;> simp [Instr.opcode]
  | addImm | andImm =>
    refine Iff.trans (and_congr_right fun ho => ?_) format_immediate.symm
    rw [decode, ho]
    cases x.getLsbD 5 <;> simp [Instr.opcode]
  | not =>
    refine Iff.trans (and_congr_right fun ho => ?_) format_twoRegisters.symm
    simp [decode, ho, Instr.opcode]
  | br =>
    refine Iff.trans (and_congr_right fun ho => ?_) format_branch.symm
    simp [decode, ho, Instr.opcode]
  | jmp base =>
    refine Iff.trans (and_congr_right fun ho => ?_) format_base.symm
    rw [decode, ho]
    exact decodeJmp_eq_jmp (of_decide_eq_true hi)
  | ret =>
    refine Iff.trans (and_congr_right fun ho => ?_) (format_base (b := .r7)).symm
    rw [decode, ho]
    exact decodeJmp_eq_ret
  | jsr =>
    refine Iff.trans (and_congr_right fun ho => ?_) format_jsr.symm
    rw [decode, ho]
    cases x.getLsbD 11 <;> simp [Instr.opcode]
  | jsrr =>
    refine Iff.trans (and_congr_right fun ho => ?_) format_jsrr.symm
    rw [decode, ho]
    cases x.getLsbD 11 <;> simp [Instr.opcode]
  | ld | ldi | lea | st | sti =>
    refine Iff.trans (and_congr_right fun ho => ?_) format_registerOffset.symm
    simp [decode, ho, Instr.opcode]
  | ldr | str =>
    refine Iff.trans (and_congr_right fun ho => ?_) format_baseOffset.symm
    simp [decode, ho, Instr.opcode]
  | trap =>
    refine Iff.trans (and_congr_right fun ho => ?_) format_trap.symm
    rw [decode, ho]
    exact decodeTrap_eq_trap (Bool.not_eq_true' _ ▸ hi)
  | getc => exact decode_eq_routine (v := 0x20#8) (fun _ => rfl) rfl rfl
  | out => exact decode_eq_routine (v := 0x21#8) (fun _ => rfl) rfl rfl
  | puts => exact decode_eq_routine (v := 0x22#8) (fun _ => rfl) rfl rfl
  | inp => exact decode_eq_routine (v := 0x23#8) (fun _ => rfl) rfl rfl
  | putsp => exact decode_eq_routine (v := 0x24#8) (fun _ => rfl) rfl rfl
  | halt => exact decode_eq_routine (v := 0x25#8) (fun _ => rfl) rfl rfl
  | rti | reserved =>
    refine Iff.trans (and_congr_right fun ho => ?_) format_ignored.symm
    simp [decode, ho, Instr.opcode, Instr.operandBits]

end Sys2Proof.Laws
end

section
/-! The statements of the encoding (O9 to O13; spec/30_encoding.md R63, R67, R68, R71). -/

namespace Sys2Proof.Machine

open Sys2Proof.Laws

/-- Settles O9: an instruction's word agrees with itself. -/
theorem decodeOfEncode : Obligations.DecodeOfEncode := by
  unfold Obligations.DecodeOfEncode
  exact fun i hi => (decode_eq_iff hi).mpr rfl

/-- Settles O10: the opcode selects the form, and JMP and TRAP words take RET's and the routines' rows. -/
theorem decodedWordIsWellFormed : Obligations.DecodedWordIsWellFormed := by
  unfold Obligations.DecodedWordIsWellFormed
  exact decode_wf_opcode

/-- Settles O11: a word decodes to its own decoded instruction, and so agrees with it on the used bits. -/
theorem encodeOfDecodeKeepsUsedBits : Obligations.EncodeOfDecodeKeepsUsedBits := by
  unfold Obligations.EncodeOfDecodeKeepsUsedBits
  intro w
  exact ((decode_eq_iff (decode_wf_opcode w).1).mp rfl).symm

/-- The ignored bits of a TRAP reach only the record of an unrecognised vector (R131). -/
theorem dispatchTrap_ignored (x y : BitVec 4) (v : BitVec 8) (s : State) :
    dispatchTrap x v s = { dispatchTrap y v s with fault := (dispatchTrap x v s).fault } := by
  rcases vector_cases v with (rfl | rfl | rfl | rfl | rfl | rfl) | hv
  case inr =>
    rw [dispatchTrap_unrecognised x s hv, dispatchTrap_unrecognised y s hv]
    rfl
  all_goals rfl

/-- Settles O12: two words that agree with one instruction's word on its used bits both decode to it, and a fatal
instruction writes its ignored bits to the record only. -/
theorem ignoredBitsChangeNothing : Obligations.IgnoredBitsChangeNothing := by
  unfold Obligations.IgnoredBitsChangeNothing
  refine ⟨fun w x h => ?_, fun x y s => ⟨_, _, rfl, rfl, rfl⟩, fun x y s => ⟨_, _, rfl, rfl, rfl⟩,
    fun x y v s => ⟨_, _, rfl, rfl, dispatchTrap_ignored x y v s⟩⟩
  have hwf := (decode_wf_opcode w).1
  exact (decode_eq_iff hwf).mpr (h.trans ((decode_eq_iff hwf).mp rfl))

/-- Settles O13, word by word. -/
theorem writtenOutWordsDecode : Obligations.WrittenOutWordsDecode := by
  unfold Obligations.WrittenOutWordsDecode
  decide

end Sys2Proof.Machine
end

section
/-! Sign extension (O14; spec/30_encoding.md R64). -/

namespace Sys2Proof.Machine

/-- Settles O14: below 16 bits the extension keeps the two's-complement value, and the rest is R64's two cases. -/
theorem signExtensionIsTwosComplement : Obligations.SignExtensionIsTwosComplement := by
  unfold Obligations.SignExtensionIsTwosComplement
  intro n f h1 h16
  refine ⟨?_, fun h => if_pos h, fun h => if_neg (by simp [h])⟩
  rw [sext_eq_signExtend f h1 h16, BitVec.toInt_signExtend_of_le h16]

end Sys2Proof.Machine
end

section
/-! The step (O5, O6; spec/30_encoding.md R60, spec/60_exceptions.md R132). -/

namespace Sys2Proof.Machine

theorem fetchAndExecute_next (s : State) : ∃ t, fetchAndExecute s = .next t := by
  rcases fetchAndExecute_cases s with ⟨-, -, h⟩ | ⟨w, s', -, h⟩
  · exact ⟨_, h⟩
  · obtain ⟨t, ht, -⟩ := exec_effect (decode w) (s'.setPc (s'.pc + 1#16))
    exact ⟨t, h.trans ht⟩

theorem resume_next (p : Pending) (s : State) : ∃ t, resume p s = .next t := by
  cases p with
  | fetch => exact fetchAndExecute_next s
  | _ => exact ⟨_, rfl⟩

/-- Settles O5: in each case of a step an instruction is executed or resumed, or the next state is at hand. -/
theorem everyStepAnswersANextState : Obligations.EveryStepAnswersANextState := by
  unfold Obligations.EveryStepAnswersANextState
  intro s
  rcases step_cases s with ⟨-, h⟩ | ⟨-, -, -, h⟩ | ⟨p, -, -, -, h⟩ | ⟨-, h⟩ <;> rw [h]
  · exact ⟨_, rfl⟩
  · exact ⟨_, rfl⟩
  · exact resume_next p _
  · exact fetchAndExecute_next s

theorem step_of_fetching {s : State} (h : Fetching s) : step s = fetchAndExecute s := by
  obtain ⟨hrun, hstop, hp⟩ := h
  simp [step, hrun, hstop, hp]

/-- Settles O6: the fetch is the device-aware read of PC. -/
theorem stepRunsTheDecodedInstruction : Obligations.StepRunsTheDecodedInstruction := by
  unfold Obligations.StepRunsTheDecodedInstruction
  refine ⟨fun s w hs hw => ?_, fun s hs hw => ?_⟩ <;> rw [step_of_fetching hs]
  · have hread : memRead s.pc s = some (w, afterRead s s.pc) := by rw [memRead_eq, hw]; rfl
    have hfetch : fetch s = some (w, _) := fetch_some.mpr ⟨_, hread, rfl⟩
    rw [fetchAndExecute, hfetch, afterRead_pc]
    rfl
  · have hread : memRead s.pc s = none := by rw [memRead_eq, hw]; rfl
    rw [fetchAndExecute, fetch_none.mpr (memRead_none.mp hread)]
    rfl

end Sys2Proof.Machine
end

/-! SUPPORT. The operate instructions (spec/40_operate.md): what their words decode to, what their operands are bit by bit,
and the statements about them. -/

section
/-! The words of an operate instruction: bit 5 selects the immediate form (R63). -/

namespace Sys2Proof.Laws

variable {w : Word}

theorem decode_of_opcode_add (h : opcodeOf w = .add) : decode w =
    if w.getLsbD 5 then .addImm (regA w) (regB w) (imm5Of w) else .addReg (regA w) (regB w) (regC w) := by
  rw [decode, h]

theorem decode_of_opcode_and (h : opcodeOf w = .and) : decode w =
    if w.getLsbD 5 then .andImm (regA w) (regB w) (imm5Of w) else .andReg (regA w) (regB w) (regC w) := by
  rw [decode, h]

theorem decode_of_opcode_not (h : opcodeOf w = .not) : decode w = .not (regA w) (regB w) := by
  rw [decode, h]

end Sys2Proof.Laws
end

section
/-! The operands of the ALU as numbers and bit by bit (R14, R64). -/

namespace Sys2Proof.Machine

/-- The bits of a sign extension: those of the field, and its sign bit above them. -/
theorem sext_getLsbD {n : Nat} (f : BitVec n) (h1 : 1 ≤ n) (h2 : n ≤ 16) {k : Nat} (hk : k < 16) :
    (sext f).getLsbD k = if k < n then f.getLsbD k else f.getLsbD (n - 1) := by
  rw [sext_eq_signExtend f h1 h2, BitVec.getLsbD_signExtend, msb_eq_getLsbD f h1, decide_eq_true hk, Bool.true_and]

/-- A word plus a field is the signed sum, wrapped. -/
theorem add_sext_eq_ofInt {n : Nat} (v : Word) (f : BitVec n) (h1 : 1 ≤ n) (h2 : n ≤ 16) :
    v + sext f = BitVec.ofInt 16 (v.toInt + f.toInt) := by
  rw [sext_eq_ofInt f h1 h2, BitVec.ofInt_add, BitVec.ofInt_toInt]

/-- The sum of two words is their signed sum, wrapped. -/
theorem add_eq_ofInt (v w : Word) : v + w = BitVec.ofInt 16 (v.toInt + w.toInt) := by
  rw [BitVec.ofInt_add, BitVec.ofInt_toInt, BitVec.ofInt_toInt]

end Sys2Proof.Machine
end

section
/-! The operate instructions, each a result of its operands, and the laws of the ALU (O17 to O22). -/

namespace Sys2Proof.Machine

open Sys2Proof.Laws

/-- Settles O17: the sum of two words is the sum of their numbers, wrapped. -/
theorem addRegister : Obligations.AddRegister := by
  unfold Obligations.AddRegister
  refine ⟨fun w h => ?_, fun dr sr1 sr2 s => ⟨_, rfl, ?_⟩⟩
  · rw [decode_of_opcode_add (opcodeOf_of_mask h rfl), bit_of_mask h 5 rfl]
    rfl
  · rw [← BitVec.add_def]
    exact State.result_is s dr _

/-- Settles O18: the sign extension adds the field's signed number. -/
theorem addImmediate : Obligations.AddImmediate := by
  unfold Obligations.AddImmediate
  refine ⟨fun w h => ?_, fun dr sr1 imm5 s => ⟨_, rfl, ?_⟩⟩
  · rw [decode_of_opcode_add (opcodeOf_of_mask h rfl), bit_of_mask h 5 rfl]
    rfl
  · rw [← add_sext_eq_ofInt (s.reg sr1) imm5 (by decide) (by decide)]
    exact State.result_is s dr _

/-- Settles O19: the result's bits are those of the bitwise AND. -/
theorem andRegister : Obligations.AndRegister := by
  unfold Obligations.AndRegister
  refine ⟨fun w h => ?_, fun dr sr1 sr2 s => ⟨_, _, rfl, State.result_is s dr _, fun k => BitVec.getLsbD_and⟩⟩
  rw [decode_of_opcode_and (opcodeOf_of_mask h rfl), bit_of_mask h 5 rfl]
  rfl

/-- Settles O20: below bit 5 the mask is the field, from bit 5 on its sign bit. -/
theorem andImmediate : Obligations.AndImmediate := by
  unfold Obligations.AndImmediate
  refine ⟨fun w h => ?_, fun dr sr1 imm5 s => ⟨_, _, rfl, State.result_is s dr _, fun k hk => ?_, fun k hk hk16 => ?_⟩⟩
  · rw [decode_of_opcode_and (opcodeOf_of_mask h rfl), bit_of_mask h 5 rfl]
    rfl
  · rw [BitVec.getLsbD_and, sext_getLsbD imm5 (by decide) (by decide) (by omega), if_pos hk]
  · rw [BitVec.getLsbD_and, sext_getLsbD imm5 (by decide) (by decide) hk16, if_neg (by omega)]

/-- Settles O21: the complement flips each of the 16 bits. -/
theorem notComplements : Obligations.NotComplements := by
  unfold Obligations.NotComplements
  refine ⟨fun w h => ?_, fun dr sr1 s => ⟨_, _, rfl, State.result_is s dr _, fun k hk => ?_⟩⟩
  · exact decode_of_opcode_not (opcodeOf_of_mask h rfl)
  · rw [BitVec.getLsbD_not, decide_eq_true hk, Bool.true_and]

/-- Subtraction as NOT, ADD of 1 and ADD compute it (R85). -/
theorem add_not_add_one (v w : Word) : v + (~~~w + sext 1#5) = v - w := by
  have hone : sext 1#5 = 1#16 := by decide
  rw [hone, ← BitVec.neg_eq_not_add, ← BitVec.sub_eq_add_neg]

/-- OR as NOT and AND compute it (R85). -/
theorem not_and_not_not (v w : Word) : ~~~(~~~v &&& ~~~w) = v ||| w := by
  rw [BitVec.not_and, BitVec.not_not, BitVec.not_not]

/-- Settles O22: the two programs leave their sources to be read, since the registers they write are others. -/
theorem aluLaws : Obligations.AluLaws := by
  unfold Obligations.AluLaws
  refine ⟨fun dr sr1 sr2 s => ⟨_, rfl, ?_⟩, fun d a b s hda => ⟨_, _, _, rfl, rfl, rfl, ?_⟩,
    fun d e a b s hde hdb => ⟨_, _, _, _, rfl, rfl, rfl, rfl, ?_⟩⟩
  · obtain ⟨hreg, -, hcond, hframe⟩ := State.result_is s dr (s.reg sr1 + s.reg sr2)
    rw [hreg]
    exact ⟨BitVec.toNat_add _ _, add_eq_ofInt _ _, hcond, hframe⟩
  · simp only [State.result_reg_same, State.result_reg_ne _ _ hda.symm]
    exact add_not_add_one _ _
  · simp only [State.result_reg_same, State.result_reg_ne _ _ hde, State.result_reg_ne _ _ hdb.symm]
    exact not_and_not_not _ _

end Sys2Proof.Machine
end

/-! SUPPORT. Control transfer (spec/41_control.md): what its words decode to, what the branch test, the link and the two link
orders of JSRR do, and the statements about them. -/

section
/-! The words of a control instruction (R63): bit 11 selects JSR over JSRR, and JMP R7 is RET. -/

namespace Sys2Proof.Laws

variable {w : Word}

theorem decode_of_opcode_br (h : opcodeOf w = .br) :
    decode w = .br (w.getLsbD 11) (w.getLsbD 10) (w.getLsbD 9) (off9Of w) := by
  rw [decode, h]

theorem decode_of_opcode_jmp (h : opcodeOf w = .jmp) : decode w = decodeJmp (regB w) := by
  rw [decode, h]

theorem decode_of_opcode_jsr (h : opcodeOf w = .jsr) :
    decode w = if w.getLsbD 11 then .jsr (off11Of w) else .jsrr (regB w) := by
  rw [decode, h]

end Sys2Proof.Laws
end

section
/-! The branch test (R90), in words and as R27's mask. -/

namespace Sys2Proof.Machine

theorem branchTaken_iff {n z p : Bool} {c : Cond} :
    branchTaken n z p c = true ↔ (n = true ∧ c = .n) ∨ (z = true ∧ c = .z) ∨ (p = true ∧ c = .p) := by
  simp [branchTaken, or_assoc]

/-- COND's word has one bit set, at the place of its flag among the condition bits of a BR word. -/
theorem branchTaken_iff_mask (m : BitVec 3) (c : Cond) :
    branchTaken (m.getLsbD 2) (m.getLsbD 1) (m.getLsbD 0) c = true ↔ m.setWidth 16 &&& c.toWord ≠ 0#16 := by
  revert m
  cases c <;> decide

theorem exec_br (n z p : Bool) (off9 : BitVec 9) (s : State) :
    exec (.br n z p off9) s = .next (if branchTaken n z p s.cond then s.setPc (pcRel s off9) else s) := rfl

end Sys2Proof.Machine
end

section
/-! The link (R92) and the two orders of JSRR's link write and base read (R12, R93). -/

namespace Sys2Proof.Machine

variable {base : Reg} (s : State)

theorem State.link_writes : WritesReg s s.link .r7 s.pc :=
  ⟨State.setReg_reg_same s .r7 s.pc, fun _ hq => State.setReg_reg_ne s s.pc hq, rfl⟩

theorem callRegister_targetFirst : callRegister .targetFirst base s = s.link.setPc (s.reg base) := rfl

/-- Away from R7 the base is read with the same word before the link and after it. -/
theorem callRegister_of_ne (order : LinkOrder) (h : base ≠ .r7) :
    callRegister order base s = s.link.setPc (s.reg base) := by
  cases order with
  | linkFirst => exact congrArg s.link.setPc (State.setReg_reg_ne s s.pc h)
  | targetFirst => exact callRegister_targetFirst s

/-- With the link first, R7 as base is the link itself. -/
theorem callRegister_linkFirst_r7 : callRegister .linkFirst .r7 s = s.link.setPc s.pc :=
  congrArg s.link.setPc (State.setReg_reg_same s .r7 s.pc)

theorem exec_jsrr : exec (.jsrr base) s = .next (callRegister Config.jsrrLinkOrder base s) := rfl

end Sys2Proof.Machine
end

section
/-! The statements of control transfer (O23 to O26). -/

namespace Sys2Proof.Machine

open Sys2Proof.Laws

/-- Settles O23: the condition bits of a word are its bits 11:9, where the mask test reads them. -/
theorem branchFollowsCond : Obligations.BranchFollowsCond := by
  unfold Obligations.BranchFollowsCond
  refine ⟨fun w h => ?_, fun n z p off9 s h => ?_, fun n z p off9 s h => ?_, fun w c => ?_⟩
  · exact decode_of_opcode_br (opcodeOf_of_mask h rfl)
  · rw [exec_br, if_pos (branchTaken_iff.mpr h), pcRel_eq_pcPlus s off9 (by decide) (by decide)]
    rfl
  · rw [exec_br, if_neg (mt branchTaken_iff.mp h)]
  · have hmask := branchTaken_iff_mask (w.extractLsb' 9 3) c
    simpa only [BitVec.getLsbD_extractLsb', Nat.reduceLT, decide_true, Bool.true_and, Nat.reduceAdd] using hmask

/-- Settles O24: a BaseR field of 7 is R7, whose jump is RET's. -/
theorem jumpTakesTheBaseRegister : Obligations.JumpTakesTheBaseRegister := by
  unfold Obligations.JumpTakesTheBaseRegister
  refine ⟨fun w h => ?_, fun base s => rfl, fun s => ⟨rfl, rfl⟩⟩
  rw [decode_of_opcode_jmp (opcodeOf_of_mask h rfl)]
  exact if_congr (eq_reg_bits (r := .r7)).symm rfl rfl

/-- Settles O25: the link writes R7 alone, so the target is formed from the same PC. -/
theorem jsrLinksAndJumps : Obligations.JsrLinksAndJumps := by
  unfold Obligations.JsrLinksAndJumps
  refine ⟨fun w h => ?_, fun off11 s => ⟨s.link, ?_, s.link_writes⟩⟩
  · rw [decode_of_opcode_jsr (opcodeOf_of_mask h rfl), bit_of_mask h 11 rfl]
    rfl
  · rw [← pcRel_eq_pcPlus s off11 (by decide) (by decide)]
    rfl

/-- Settles O26: only a base of R7 can see the link, and does where the link comes first. -/
theorem jsrrLinksAndJumps : Obligations.JsrrLinksAndJumps := by
  unfold Obligations.JsrrLinksAndJumps
  refine ⟨fun w h => ?_, fun base s => ⟨s.link, _, ?_, s.link_writes, rfl⟩⟩
  · rw [decode_of_opcode_jsr (opcodeOf_of_mask h rfl), bit_of_mask h 11 rfl]
    rfl
  · rw [exec_jsrr]
    generalize Config.jsrrLinkOrder = order
    by_cases hb : base = .r7
    · subst hb
      rw [if_pos rfl]
      cases order with
      | linkFirst => exact congrArg Host.Outcome.next (callRegister_linkFirst_r7 s)
      | targetFirst => exact congrArg Host.Outcome.next (callRegister_targetFirst s)
    · rw [if_neg hb]
      exact congrArg Host.Outcome.next (callRegister_of_ne s order hb)

end Sys2Proof.Machine
end

/-! SUPPORT. Loads, LEA and stores (spec/42_load_store.md): what their words decode to, what they do in the terms of Safety,
and the statements about them. -/

section
/-! The words of a load, LEA or store (R63): each has an opcode to itself. -/

namespace Sys2Proof.Laws

variable {w : Word}

theorem decode_of_opcode_ld (h : opcodeOf w = .ld) : decode w = .ld (regA w) (off9Of w) := by
  rw [decode, h]

theorem decode_of_opcode_ldi (h : opcodeOf w = .ldi) : decode w = .ldi (regA w) (off9Of w) := by
  rw [decode, h]

theorem decode_of_opcode_ldr (h : opcodeOf w = .ldr) : decode w = .ldr (regA w) (regB w) (off6Of w) := by
  rw [decode, h]

theorem decode_of_opcode_lea (h : opcodeOf w = .lea) : decode w = .lea (regA w) (off9Of w) := by
  rw [decode, h]

theorem decode_of_opcode_st (h : opcodeOf w = .st) : decode w = .st (regA w) (off9Of w) := by
  rw [decode, h]

theorem decode_of_opcode_sti (h : opcodeOf w = .sti) : decode w = .sti (regA w) (off9Of w) := by
  rw [decode, h]

theorem decode_of_opcode_str (h : opcodeOf w = .str) : decode w = .str (regA w) (regB w) (off6Of w) := by
  rw [decode, h]

end Sys2Proof.Laws
end

section
/-! Loads and indirect accesses by what their read gives: a word and the effect of the read, or a wait (R42 to R44). -/

namespace Sys2Proof.Machine

variable {s : State} {a w : Word}

theorem memRead_of_readValue_some (h : readValue s a = some w) : memRead a s = some (w, afterRead s a) := by
  rw [memRead_eq, h, Option.map_some]

theorem memRead_of_readValue_none (h : readValue s a = none) : memRead a s = none := by
  rw [memRead_eq, h, Option.map_none]

theorem loadFrom_of_some (dr : Reg) (h : readValue s a = some w) : loadFrom dr a s = (afterRead s a).result dr w := by
  rw [loadFrom, memRead_of_readValue_some h]

theorem loadFrom_of_none (dr : Reg) (h : readValue s a = none) : loadFrom dr a s = s.wait (.load dr) := by
  rw [loadFrom, memRead_of_readValue_none h]

theorem loadIndirect_of_some (dr : Reg) (h : readValue s a = some w) :
    loadIndirect dr a s = loadFrom dr w (afterRead s a) := by
  rw [loadIndirect, memRead_of_readValue_some h]

theorem loadIndirect_of_none (dr : Reg) (h : readValue s a = none) : loadIndirect dr a s = s.wait (.ldiPointer dr) := by
  rw [loadIndirect, memRead_of_readValue_none h]

/-- The pointer read leaves the register that is stored. -/
theorem storeIndirect_of_some (sr : Reg) (h : readValue s a = some w) :
    storeIndirect sr a s = memWrite w (s.reg sr) (afterRead s a) := by
  rw [← afterRead_reg s a sr, storeIndirect, memRead_of_readValue_some h]

theorem storeIndirect_of_none (sr : Reg) (h : readValue s a = none) :
    storeIndirect sr a s = s.wait (.stiPointer sr) := by
  rw [storeIndirect, memRead_of_readValue_none h]

/-- A load whose read gives a word ends in a result. -/
theorem loadFrom_is (dr : Reg) (h : readValue s a = some w) : ResultIs (afterRead s a) (loadFrom dr a s) dr w := by
  rw [loadFrom_of_some dr h]
  exact State.result_is _ dr w

end Sys2Proof.Machine
end

section
/-! The instructions with their effective addresses in the terms of Safety (R66). -/

namespace Sys2Proof.Machine

variable (r base : Reg) (off9 : BitVec 9) (off6 : BitVec 6) (s : State)

theorem pcRel_off9 : pcRel s off9 = pcPlus s off9 := pcRel_eq_pcPlus s off9 (by decide) (by decide)

theorem exec_ld : exec (.ld r off9) s = .next (loadFrom r (pcPlus s off9) s) := by
  rw [← pcRel_off9]
  rfl

theorem exec_ldi : exec (.ldi r off9) s = .next (loadIndirect r (pcPlus s off9) s) := by
  rw [← pcRel_off9]
  rfl

theorem exec_ldr : exec (.ldr r base off6) s = .next (loadFrom r (regPlus s base off6) s) := by
  rw [← baseRel_eq_regPlus]
  rfl

theorem exec_lea : exec (.lea r off9) s = .next (s.result r (pcPlus s off9)) := by
  rw [← pcRel_off9]
  rfl

theorem exec_st : exec (.st r off9) s = .next (memWrite (pcPlus s off9) (s.reg r) s) := by
  rw [← pcRel_off9]
  rfl

theorem exec_sti : exec (.sti r off9) s = .next (storeIndirect r (pcPlus s off9) s) := by
  rw [← pcRel_off9]
  rfl

theorem exec_str : exec (.str r base off6) s = .next (memWrite (regPlus s base off6) (s.reg r) s) := by
  rw [← baseRel_eq_regPlus]
  rfl

end Sys2Proof.Machine
end

section
/-! The statements of loads, LEA and stores (O27 to O33), in a namespace of their own: two of their names are those of
operations of the model. -/

namespace Sys2Proof.LoadStore

open Sys2Proof.Machine Sys2Proof.Laws

/-- Settles O27: LD is a load from its PC-relative address. -/
theorem loadPcRelative : Obligations.LoadPcRelative := by
  unfold Obligations.LoadPcRelative
  refine ⟨fun w h => ?_, fun dr off9 s r hr => ?_, fun dr off9 s hr => ?_⟩
  · exact decode_of_opcode_ld (opcodeOf_of_mask h rfl)
  · exact ⟨_, exec_ld dr off9 s, loadFrom_is dr hr⟩
  · rw [exec_ld, loadFrom_of_none dr hr]
    rfl

/-- Settles O28: after the pointer read LDI is a load from the pointer, in the state that read leaves. -/
theorem loadIndirect : Obligations.LoadIndirect := by
  unfold Obligations.LoadIndirect
  refine ⟨fun w h => ?_, fun dr off9 s ea r hea hr => ⟨_, exec_ldi dr off9 s, ?_⟩, fun dr off9 s hea => ?_,
    fun dr off9 s ea hea hr => ?_⟩
  · exact decode_of_opcode_ldi (opcodeOf_of_mask h rfl)
  · rw [loadIndirect_of_some dr hea]
    exact loadFrom_is dr hr
  · rw [exec_ldi, loadIndirect_of_none dr hea]
    rfl
  · rw [exec_ldi, loadIndirect_of_some dr hea, loadFrom_of_none dr hr]
    rfl

/-- Settles O29: LDR is a load from its base-relative address. -/
theorem loadBaseOffset : Obligations.LoadBaseOffset := by
  unfold Obligations.LoadBaseOffset
  refine ⟨fun w h => ?_, fun dr base off6 s r hr => ?_, fun dr base off6 s hr => ?_⟩
  · exact decode_of_opcode_ldr (opcodeOf_of_mask h rfl)
  · exact ⟨_, exec_ldr dr base off6 s, loadFrom_is dr hr⟩
  · rw [exec_ldr, loadFrom_of_none dr hr]
    rfl

/-- Settles O30: LEA's result is the address itself. -/
theorem leaComputesTheAddress : Obligations.LeaComputesTheAddress := by
  unfold Obligations.LeaComputesTheAddress
  refine ⟨fun w h => ?_, fun dr off9 s => ⟨_, exec_lea dr off9 s, State.result_is s dr _⟩⟩
  exact decode_of_opcode_lea (opcodeOf_of_mask h rfl)

/-- Settles O31: ST is a write to its PC-relative address. -/
theorem storePcRelative : Obligations.StorePcRelative := by
  unfold Obligations.StorePcRelative
  refine ⟨fun w h => ?_, fun sr off9 s hm => ⟨_, exec_st sr off9 s, memWrite_is hm _ _⟩⟩
  exact decode_of_opcode_st (opcodeOf_of_mask h rfl)

/-- Settles O32: the pointer read leaves memory canonical, so the write after it is a store. -/
theorem storeIndirect : Obligations.StoreIndirect := by
  unfold Obligations.StoreIndirect
  refine ⟨fun w h => ?_, fun sr off9 s ea hm hea => ⟨_, exec_sti sr off9 s, ?_⟩, fun sr off9 s hea => ?_⟩
  · exact decode_of_opcode_sti (opcodeOf_of_mask h rfl)
  · have hm' : Memory.wf (afterRead s (pcPlus s off9)).mem = true := by rwa [afterRead_mem]
    rw [storeIndirect_of_some sr hea]
    exact memWrite_is hm' ea _
  · rw [exec_sti, storeIndirect_of_none sr hea]
    rfl

/-- Settles O33: STR is a write to its base-relative address, formed before it. -/
theorem storeBaseOffset : Obligations.StoreBaseOffset := by
  unfold Obligations.StoreBaseOffset
  refine ⟨fun w h => ?_, fun sr base off6 s hm => ⟨_, exec_str sr base off6 s, memWrite_is hm _ _⟩⟩
  exact decode_of_opcode_str (opcodeOf_of_mask h rfl)

end Sys2Proof.LoadStore
end

/-! SUPPORT. TRAP, its routines and the undefined opcodes (spec/43_trap_and_undefined.md): the word a fault records, what a byte
taken and a turn of a string routine do, and the statements about them. -/

section
/-! The words of the undefined opcodes and of a TRAP that names no routine, as numbers (R63, R131). -/

namespace Sys2Proof.Laws

variable {w : Word}

theorem decode_of_opcode_trap (h : opcodeOf w = .trap) : decode w = decodeTrap (w.extractLsb' 8 4) (vectOf w) := by
  rw [decode, h]

theorem decode_of_opcode_rti (h : opcodeOf w = .rti) : decode w = .rti (w.extractLsb' 0 12) := by
  rw [decode, h]

theorem decode_of_opcode_reserved (h : opcodeOf w = .reserved) : decode w = .reserved (w.extractLsb' 0 12) := by
  rw [decode, h]

/-- A word that matches an instruction's row of the opcode table decodes to it. -/
theorem decode_of_mask {i : Instr} {m v : Word} (hi : i.wf = true) (hm : i.usedBits = m) (hv : encode i &&& m = v)
    (h : w &&& m = v) : decode w = i :=
  (decode_eq_iff hi).mpr (by rw [hm, hv, h])

theorem vectOf_toNat (w : Word) : (vectOf w).toNat = w.toNat % 256 :=
  BitVec.extractLsb'_toNat 0 8 w

theorem append_toNat {m n : Nat} (a : BitVec m) (b : BitVec n) : (a ++ b).toNat = a.toNat * 2 ^ n + b.toNat := by
  rw [BitVec.toNat_append, ← Nat.shiftLeft_add_eq_or_of_lt b.isLt, Nat.shiftLeft_eq]

theorem eq_ofNat_of_toNat {n k : Nat} {x : BitVec n} (h : x.toNat = k) : x = BitVec.ofNat n k := by
  rw [← h, BitVec.ofNat_toNat, BitVec.setWidth_eq]

/-- An instruction's word is its opcode above its operand bits. -/
theorem encode_eq_ofNat {i : Instr} {o : Opcode} (ho : i.opcode = o) :
    encode i = BitVec.ofNat 16 (o.bits.toNat * 0x1000 + i.operandBits.toNat) :=
  eq_ofNat_of_toNat (ho ▸ append_toNat i.opcode.bits i.operandBits)

theorem encode_trap (ig : BitVec 4) (v : BitVec 8) :
    encode (.trap ig v) = BitVec.ofNat 16 (0xF000 + 256 * ig.toNat + v.toNat) := by
  have hoperand : (Instr.trap ig v).operandBits.toNat = ig.toNat * 256 + v.toNat := append_toNat ig v
  rw [encode_eq_ofNat (o := .trap) rfl, hoperand, Nat.mul_comm ig.toNat, ← Nat.add_assoc]
  rfl

theorem encode_rti (x : BitVec 12) : encode (.rti x) = BitVec.ofNat 16 (0x8000 + x.toNat) :=
  encode_eq_ofNat (o := .rti) rfl

theorem encode_reserved (x : BitVec 12) : encode (.reserved x) = BitVec.ofNat 16 (0xD000 + x.toNat) :=
  encode_eq_ofNat (o := .reserved) rfl

end Sys2Proof.Laws
end

section
/-! The characters of a word (spec/20_memory.md R49), and what is written to the console. -/

namespace Sys2Proof.Machine

theorem lowByte_eq_ofNat (w : Word) : lowByte w = BitVec.ofNat 8 w.toNat := by
  apply BitVec.eq_of_toNat_eq
  simp [lowByte]

theorem highByte_toNat (w : Word) : (highByte w).toNat = w.toNat / 256 := by
  have hlt : w.toNat / 256 < 256 := Nat.div_lt_of_lt_mul w.isLt
  rw [highByte, BitVec.extractLsb'_toNat, Nat.shiftRight_eq_div_pow]
  exact Nat.mod_eq_of_lt hlt

theorem highByte_eq_ofNat (w : Word) : highByte w = BitVec.ofNat 8 (w.toNat / 256) :=
  Laws.eq_ofNat_of_toNat (highByte_toNat w)

theorem highByte_eq_zero {w : Word} : highByte w = 0#8 ↔ w.toNat / 256 = 0 := by
  rw [← highByte_toNat, ← BitVec.toNat_inj]
  rfl

/-- PUTSP's bytes for a word: always the low one, the high one only if it is not zero. -/
theorem packedBytes_eq (w : Word) :
    packedBytes w = [lowByte w] ++ if highByte w = 0#8 then [] else [highByte w] := by
  unfold packedBytes
  split <;> rfl

theorem State.emit_nil (s : State) : s.emit [] = s := by
  simp [State.emit]

theorem State.emit_emit (s : State) (o o' : List Byte) : (s.emit o).emit o' = s.emit (o ++ o') := by
  simp [State.emit]

/-- Output leaves a string in memory as it is. -/
theorem StringAt.emit {s : State} {a : Word} {cs : List Word} (h : StringAt s a cs) (o : List Byte) :
    StringAt (s.emit o) a cs := by
  induction cs generalizing a with
  | nil => exact h
  | cons c cs ih =>
    obtain ⟨ho, hw, hc, hrest⟩ := h
    exact ⟨ho, hw, hc, ih hrest⟩

end Sys2Proof.Machine
end

section
/-! GETC and IN by whether a byte is delivered (R112, R115). -/

namespace Sys2Proof.Machine

/-- A byte taken goes to R0, zero-extended, and to COND where the open parameter says so; nothing else changes. -/
theorem State.takeByte_is (s : State) (b : Byte) :
    (s.takeByte b).reg .r0 = BitVec.ofNat 16 b.toNat ∧ (∀ r, r ≠ .r0 → (s.takeByte b).reg r = s.reg r) ∧
      (s.takeByte b).cond = (if Config.trapInSetsFlags then signFlag (BitVec.ofNat 16 b.toNat) else s.cond) ∧
      s.takeByte b = { s with regs := (s.takeByte b).regs, cond := (s.takeByte b).cond } := by
  refine ⟨?_, fun r hr => s.takeByte_reg_ne b hr, ?_, rfl⟩
  · rw [State.takeByte_reg_r0, zext8_eq_ofNat]
  · rw [State.takeByte_cond, condOf_eq_signFlag, zext8_eq_ofNat]

variable {s : State}

theorem consoleIn_cons {b : Byte} {q : List Byte} (h : s.inq = b :: q) : consoleIn s = some (b, s.setInq q) :=
  consoleIn_some.mpr ⟨q, h, rfl⟩

theorem getcRoutine_nil (h : s.inq = []) : getcRoutine s = s.wait .getc := by
  rw [getcRoutine, consoleIn_none.mpr h]

theorem getcRoutine_cons {b : Byte} {q : List Byte} (h : s.inq = b :: q) : getcRoutine s = (s.setInq q).takeByte b := by
  rw [getcRoutine, consoleIn_cons h]

theorem inByteRoutine_nil (h : s.inq = []) : inByteRoutine s = s.wait .inByte := by
  rw [inByteRoutine, consoleIn_none.mpr h]

theorem inByteRoutine_cons {b : Byte} {q : List Byte} (h : s.inq = b :: q) :
    inByteRoutine s = ((s.setInq q).emit [b]).takeByte b := by
  rw [inByteRoutine, consoleIn_cons h]

end Sys2Proof.Machine
end

section
/-! The string routines (R114, R116): one turn, a whole string of ordinary storage, and how every string ends. -/

namespace Sys2Proof.Machine

variable (bytes : Word → List Byte) (left : Word → Pending) {a w : Word} {s s' : State}

theorem stringLoop_succ_of_read_none (fuel : Nat) (hr : memRead a s = none) :
    stringLoop bytes left (fuel + 1) a s = s.wait (left a) := by
  simp only [stringLoop, hr]

theorem stringLoop_succ_of_read_zero (fuel : Nat) (hr : memRead a s = some (0#16, s')) :
    stringLoop bytes left (fuel + 1) a s = s' := by
  simp only [stringLoop, hr, if_pos]

/-- One turn of a string routine; the turns after it have the reads of their own state, so that none is the last by
a bound. -/
theorem stringLoop_turn (a : Word) (s : State) :
    stringLoop bytes left (stringFuel s) a s = (memRead a s).elim (s.wait (left a)) fun r =>
      if r.1 = 0#16 then r.2 else stringLoop bytes left (stringFuel r.2) (a + 1#16) (r.2.emit (bytes r.1)) := by
  have hmore := stringLoop_one_more bytes left (readsBound_lt_stringFuel a s)
  cases hr : memRead a s with
  | none => exact hmore.symm.trans (stringLoop_succ_of_read_none bytes left _ hr)
  | some r =>
    obtain ⟨w, s'⟩ := r
    by_cases hw : w = 0#16
    · subst hw
      exact hmore.symm.trans (stringLoop_succ_of_read_zero bytes left _ hr)
    · exact (stringLoop_next bytes left hr hw).trans (if_neg hw).symm

theorem dispatchTrap_puts (ig : BitVec 4) (s : State) : dispatchTrap ig 0x22#8 s = putsRoutine s := by
  simp only [dispatchTrap, BitVec.reduceToNat]

theorem dispatchTrap_putsp (ig : BitVec 4) (s : State) : dispatchTrap ig 0x24#8 s = putspRoutine s := by
  simp only [dispatchTrap, BitVec.reduceToNat]

/-- A zero-terminated string of ordinary storage is written word by word, and nothing else happens. -/
theorem stringLoop_of_stringAt {cs : List Word} (h : StringAt s a cs) :
    stringLoop bytes left (stringFuel s) a s = s.emit (cs.flatMap bytes) := by
  induction cs generalizing a s with
  | nil =>
    obtain ⟨ho, hz⟩ := h
    rw [stringLoop_turn, memRead_ordinary ho, Option.elim_some, if_pos hz, List.flatMap_nil, State.emit_nil]
  | cons c cs ih =>
    obtain ⟨ho, rfl, hc, hrest⟩ := h
    rw [stringLoop_turn, memRead_ordinary ho, Option.elim_some, if_neg hc, List.flatMap_cons, ← State.emit_emit]
    exact ih (hrest.emit _)

/-- With enough reads a string routine completes, or waits at KBDR with no byte left. -/
theorem stringLoop_completes_or_waits {fuel : Nat} (h : readsBound a s.inq.length < fuel) :
    (stringLoop bytes left fuel a s).pending = s.pending ∨
      ((stringLoop bytes left fuel a s).pending = some (left kbdrAddr) ∧ (stringLoop bytes left fuel a s).inq = []) := by
  induction fuel generalizing a s with
  | zero => omega
  | succ fuel ih =>
    rcases stringLoop_succ bytes left fuel a s with ⟨hr, hl⟩ | ⟨s', hr, hl⟩ | ⟨w, s', hr, -, hl⟩ <;> rw [hl]
    · obtain ⟨rfl, hq⟩ := memRead_none.mp hr
      exact .inr ⟨rfl, hq⟩
    · obtain ⟨q, -, rfl⟩ := memRead_inq hr
      exact .inl rfl
    · have hb := readsBound_read hr
      obtain ⟨q, -, rfl⟩ := memRead_inq hr
      exact ih (s := (s.setInq q).emit (bytes w)) (by rw [State.emit_inq]; omega)

/-- From every state and address: how a string routine ends, and its frame. -/
theorem stringLoop_ends (a : Word) (s : State) : ∃ t, stringLoop bytes left (stringFuel s) a s = t ∧
    t = { s with inq := t.inq, outq := t.outq, pending := t.pending } ∧
    (t.pending = s.pending ∨ (t.pending = some (left kbdrAddr) ∧ t.inq = [])) := by
  refine ⟨_, rfl, ?_, stringLoop_completes_or_waits bytes left (readsBound_lt_stringFuel a s)⟩
  obtain ⟨q, o, p, h⟩ := stringLoop_frame bytes left (stringFuel s) a s
  rw [h]

end Sys2Proof.Machine
end

section
/-! The statements of TRAP, its routines and the undefined opcodes (O34 to O44). -/

namespace Sys2Proof.Machine

open Sys2Proof.Laws

/-- Settles O34: a routine's used bits are all but bits 11:8, and any other vector is left to TRAP. -/
theorem trapDispatchesOnItsVector : Obligations.TrapDispatchesOnItsVector := by
  unfold Obligations.TrapDispatchesOnItsVector
  refine ⟨fun w => decode_of_mask rfl rfl rfl, fun w => decode_of_mask rfl rfl rfl, fun w => decode_of_mask rfl rfl rfl,
    fun w => decode_of_mask rfl rfl rfl, fun w => decode_of_mask rfl rfl rfl, fun w => decode_of_mask rfl rfl rfl,
    fun w h hv => ?_, fun ig s => ⟨rfl, rfl, ?_, rfl, ?_, rfl⟩, fun ig s => rfl⟩
  · rw [← vectOf_toNat] at hv
    rw [decode_of_opcode_trap (opcodeOf_of_mask h rfl), decodeTrap_unrecognised _ hv]
    rfl
  · exact congrArg Host.Outcome.next (dispatchTrap_puts ig s)
  · exact congrArg Host.Outcome.next (dispatchTrap_putsp ig s)

/-- Settles O35: the byte at the head of the queue is the byte taken. -/
theorem getcTakesOneByte : Obligations.GetcTakesOneByte := by
  unfold Obligations.GetcTakesOneByte
  exact ⟨fun s b q hq => ⟨_, congrArg Host.Outcome.next (getcRoutine_cons hq), (s.setInq q).takeByte_is b⟩,
    fun s hq => congrArg Host.Outcome.next (getcRoutine_nil hq)⟩

/-- Settles O36: the byte is the low byte of R0. -/
theorem outWritesTheLowByte : Obligations.OutWritesTheLowByte := by
  unfold Obligations.OutWritesTheLowByte
  intro s
  refine ⟨lowByte (s.reg .r0), ?_, rfl⟩
  rw [lowByte_eq_ofNat, BitVec.toNat_ofNat]

/-- Settles O37: PUTS is the string loop that writes one byte for each word. -/
theorem putsWritesTheString : Obligations.PutsWritesTheString := by
  unfold Obligations.PutsWritesTheString
  intro s cs h
  have hbytes : cs.flatMap plainBytes = cs.map fun c => BitVec.ofNat 8 c.toNat := by
    simp only [List.map_eq_flatMap, ← lowByte_eq_ofNat]
    rfl
  rw [← hbytes]
  exact congrArg Host.Outcome.next (stringLoop_of_stringAt plainBytes .puts h)

/-- Settles O38: after its prompt IN takes a byte as GETC does, with an echo. -/
theorem inPromptsEchoesAndTakesOneByte : Obligations.InPromptsEchoesAndTakesOneByte := by
  unfold Obligations.InPromptsEchoesAndTakesOneByte
  refine ⟨fun s b q hq => ?_, fun s hq => ?_⟩
  · have hin : inRoutine s = (((s.emit Config.inPrompt).setInq q).emit [b]).takeByte b := inByteRoutine_cons hq
    exact ⟨_, congrArg Host.Outcome.next hin, State.takeByte_is _ b⟩
  · have hin : inRoutine s = (s.emit Config.inPrompt).wait .inByte := inByteRoutine_nil hq
    exact congrArg Host.Outcome.next hin

/-- Settles O39: PUTSP is the string loop that writes a word's two characters, a zero high byte left out. -/
theorem putspWritesThePackedString : Obligations.PutspWritesThePackedString := by
  unfold Obligations.PutspWritesThePackedString
  intro s cs h
  have hbytes : (fun c : Word => BitVec.ofNat 8 c.toNat ::
      (if c.toNat / 256 = 0 then [] else [BitVec.ofNat 8 (c.toNat / 256)])) = packedBytes := by
    funext c
    simp only [packedBytes_eq, ← lowByte_eq_ofNat, ← highByte_eq_ofNat, ← highByte_eq_zero]
    rfl
  rw [hbytes]
  exact congrArg Host.Outcome.next (stringLoop_of_stringAt packedBytes .putsp h)

/-- Settles O40: HALT is the message and `halt()`, after which no step executes. -/
theorem haltEndsTheRun : Obligations.HaltEndsTheRun := by
  unfold Obligations.HaltEndsTheRun
  intro s
  exact ⟨rfl, halt_eq s, rfl⟩

/-- Settles O41: each turn is `stringLoop_turn`, read by read. -/
theorem stringRoutinesAreTheLoopsOfTheSpec : Obligations.StringRoutinesAreTheLoopsOfTheSpec := by
  unfold Obligations.StringRoutinesAreTheLoopsOfTheSpec
  refine ⟨fun s => ⟨rfl, rfl⟩, fun a s => ?_, fun a s => ?_⟩
  · rw [putsFrom, stringLoop_turn]
    cases memRead a s <;> rfl
  · rw [putspFrom, stringLoop_turn]
    simp only [packedBytes_eq, ← State.emit_emit]
    cases memRead a s <;> rfl

/-- Settles O42: both routines are string loops with enough reads. -/
theorem stringRoutinesCompleteOrWait : Obligations.StringRoutinesCompleteOrWait := by
  unfold Obligations.StringRoutinesCompleteOrWait
  refine ⟨fun s => ?_, fun s => ?_⟩
  · obtain ⟨t, ht, hends⟩ := stringLoop_ends plainBytes .puts (s.reg .r0) s
    exact ⟨t, congrArg Host.Outcome.next ht, hends⟩
  · obtain ⟨t, ht, hends⟩ := stringLoop_ends packedBytes .putsp (s.reg .r0) s
    exact ⟨t, congrArg Host.Outcome.next ht, hends⟩

/-- Settles O43: the dispatch of any other vector is the fatal condition, with the TRAP's own word. -/
theorem unrecognisedVectorIsFatal : Obligations.UnrecognisedVectorIsFatal := by
  unfold Obligations.UnrecognisedVectorIsFatal
  intro ig v s hv
  rw [← encode_trap]
  exact congrArg Host.Outcome.next (dispatchTrap_unrecognised ig s hv)

/-- Settles O44: each of the two opcodes has an instruction to itself, which raises its condition with its own word. -/
theorem undefinedOpcodesAreFatal : Obligations.UndefinedOpcodesAreFatal := by
  unfold Obligations.UndefinedOpcodesAreFatal
  refine ⟨fun w h => decode_of_opcode_rti (opcodeOf_of_mask h rfl),
    fun w h => decode_of_opcode_reserved (opcodeOf_of_mask h rfl), fun x s => ?_, fun x s => ?_⟩
  · rw [← encode_rti]
    rfl
  · rw [← encode_reserved]
    rfl

end Sys2Proof.Machine
end

/-! SUPPORT. The end of a run (spec/60_exceptions.md): how a stop request, a fatal instruction and the exit status end it,
and the statements about them. -/

section
/-! A running core by its stop latch, its instruction in progress and its queue (R135, R136, R144). -/

namespace Sys2Proof.Machine

variable {s : State}

/-- The latch is taken before the fetch, and while the core waits with no byte. -/
theorem step_of_stop (hrun : s.run = .running) (hstop : s.stop = true) (hw : s.pending = none ∨ s.inq = []) :
    step s = .next s.stopNow := by
  rcases step_cases s with ⟨hr, -⟩ | ⟨-, -, -, h⟩ | ⟨p, -, hp, hgo, -⟩ | ⟨⟨-, hs, -⟩, -⟩
  · exact absurd hrun hr
  · exact h
  · exact absurd hw (by simpa [hstop, hp] using hgo)
  · rw [hstop] at hs; cases hs

/-- A byte delivered ends a wait, whatever the latch holds. -/
theorem step_of_byte {p : Pending} (hrun : s.run = .running) (hp : s.pending = some p) (hq : s.inq ≠ []) :
    step s = resume p (s.setPending none) := by
  rcases step_cases s with ⟨hr, -⟩ | ⟨-, -, hw, -⟩ | ⟨p', -, hp', -, h⟩ | ⟨⟨-, -, hnone⟩, -⟩
  · exact absurd hrun hr
  · exact absurd hw (by simp [hp, hq])
  · cases hp.symm.trans hp'
    exact h
  · rw [hp] at hnone; cases hnone

/-- A request during a wait with no byte ends the run at once. -/
theorem State.requestStop_of_waiting (hrun : s.run = .running) (hp : s.pending ≠ none) (hq : s.inq = []) :
    s.requestStop = { s with stop := true, run := .halted, pending := none } := by
  rcases State.requestStop_cases s with ⟨hr, -⟩ | ⟨-, -, -, h⟩ | ⟨-, hw, -⟩
  · exact absurd hrun hr
  · exact h
  · exact absurd hw (by tauto)

end Sys2Proof.Machine
end

section
/-! Neither the fetch nor what is left of an instruction reads the stop latch (O7). -/

namespace Sys2Proof.Machine

variable (h : Bool → Bool) (s : State)

/-- With COND left alone, only the latch differs. -/
theorem FollowsFlags.eq_mapStop {h : Bool → Bool} {t u : State} (hf : FollowsFlags id h t u) : u = t.mapFlags id h :=
  hf.elim id id

theorem fetchAndExecute_mapStop :
    ∃ t, fetchAndExecute s = .next t ∧ fetchAndExecute (s.mapFlags id h) = .next (t.mapFlags id h) := by
  unfold fetchAndExecute fetch
  rw [show (s.mapFlags id h).pc = s.pc from rfl, memRead_mapFlags]
  cases memRead s.pc s with
  | none => exact ⟨_, rfl, rfl⟩
  | some r =>
    obtain ⟨t, u, ht, hu, hf⟩ := exec_mapFlags id h (decode r.1) (r.2.setPc (r.2.pc + 1#16)) (.inr rfl)
    obtain rfl := hf.eq_mapStop
    exact ⟨t, ht, hu⟩

theorem resume_mapStop (p : Pending) :
    ∃ t, resume p s = .next t ∧ resume p (s.mapFlags id h) = .next (t.mapFlags id h) := by
  cases p with
  | fetch => exact fetchAndExecute_mapStop h s
  | load dr => exact ⟨_, rfl, congrArg _ (FollowsFlags.loadFrom id h dr kbdrAddr s).eq_mapStop⟩
  | ldiPointer dr => exact ⟨_, rfl, congrArg _ (FollowsFlags.loadIndirect id h dr kbdrAddr s).eq_mapStop⟩
  | stiPointer sr => exact ⟨_, rfl, congrArg _ (storeIndirect_mapFlags id h sr kbdrAddr s)⟩
  | getc => exact ⟨_, rfl, congrArg _ (FollowsFlags.getcRoutine id h s).eq_mapStop⟩
  | inByte => exact ⟨_, rfl, congrArg _ (FollowsFlags.inByteRoutine id h s).eq_mapStop⟩
  | puts a => exact ⟨_, rfl, congrArg _ (stringLoop_mapFlags id h plainBytes .puts _ a s)⟩
  | putsp a => exact ⟨_, rfl, congrArg _ (stringLoop_mapFlags id h packedBytes .putsp _ a s)⟩

/-- Settles O7: a byte ends the wait before the latch is looked at, and what it resumes is blind to the latch; a request
before the byte has ended the run, which steps no more. -/
theorem stopRequestEndsTheRun : Obligations.StopRequestEndsTheRun := by
  unfold Obligations.StopRequestEndsTheRun
  refine ⟨fun s hrun hstop hw => step_of_stop hrun hstop hw, fun s hrun hp hq => ?_, fun s b hrun hp hq => ?_⟩
  · obtain ⟨p, hp⟩ := Option.ne_none_iff_exists'.mp hp
    obtain ⟨t, ht, hu⟩ := resume_mapStop (fun _ => true) ({ s with stop := false }.setPending none) p
    exact ⟨t, (step_of_byte (s := { s with stop := false }) hrun hp hq).trans ht,
      (step_of_byte (s := { s with stop := true }) hrun hp hq).trans hu⟩
  · rw [State.requestStop_of_waiting hrun hp hq]
    show Host.Outcome.next { s with stop := true, run := .halted, pending := none, inq := s.inq ++ [b] } = _
    rw [hq]
    rfl

end Sys2Proof.Machine
end

section
/-! The fatal instructions and their words (O45; R130, R131). -/

namespace Sys2Proof.Machine

open Sys2Proof.Laws

/-- The opcode of the instructions that raise a fatal condition. -/
def FatalCode.opcode : FatalCode → Opcode
  | .rti => .rti
  | .reserved => .reserved
  | .badTrap => .trap

/-- The fatal instructions, one by one. -/
theorem fatal_cases {i : Instr} {c : FatalCode} (h : i.fatal = some c) :
    (∃ x, i = .rti x ∧ c = .rti) ∨ (∃ x, i = .reserved x ∧ c = .reserved) ∨
      ∃ ig v, i = .trap ig v ∧ (v.toNat < 0x20 ∨ 0x25 < v.toNat) ∧ c = .badTrap := by
  cases i <;> simp only [Instr.fatal, reduceCtorEq, Option.some.injEq, Option.ite_none_left_eq_some] at h
  case trap ig v =>
    obtain ⟨hv, rfl⟩ := h
    exact .inr (.inr ⟨ig, v, rfl, by omega, rfl⟩)
  case rti x => exact .inl ⟨x, rfl, h.symm⟩
  case reserved x => exact .inr (.inl ⟨x, rfl, h.symm⟩)

/-- A fatal instruction records its own word. -/
theorem exec_fatal_records_word {i : Instr} {c : FatalCode} (h : i.fatal = some c) (s : State) :
    exec i s = .next (s.raiseFatal c (encode i)) := by
  rcases fatal_cases h with ⟨x, rfl, rfl⟩ | ⟨x, rfl, rfl⟩ | ⟨ig, v, rfl, hv, rfl⟩
  · rfl
  · rfl
  · exact congrArg Host.Outcome.next (dispatchTrap_unrecognised ig s hv)

theorem opcode_of_fatal {i : Instr} {c : FatalCode} (h : i.fatal = some c) : i.opcode = c.opcode := by
  rcases fatal_cases h with ⟨x, rfl, rfl⟩ | ⟨x, rfl, rfl⟩ | ⟨ig, v, rfl, -, rfl⟩ <;> rfl

/-- A fatal instruction keeps every bit of its word. -/
theorem usedBits_of_fatal {i : Instr} {c : FatalCode} (h : i.fatal = some c) : i.usedBits = BitVec.allOnes 16 := by
  rcases fatal_cases h with ⟨x, rfl, rfl⟩ | ⟨x, rfl, rfl⟩ | ⟨ig, v, rfl, -, rfl⟩ <;> rfl

theorem encode_decode_of_fatal {w : Word} {c : FatalCode} (h : (decode w).fatal = some c) : encode (decode w) = w := by
  have hused := encodeOfDecodeKeepsUsedBits w
  rwa [usedBits_of_fatal h, BitVec.and_allOnes, BitVec.and_allOnes] at hused

/-- A TRAP word has the fatal condition of TRAP with its vector, under whatever name it decodes. -/
theorem decodeTrap_fatal (ig : BitVec 4) (v : BitVec 8) : (decodeTrap ig v).fatal = (Instr.trap ig v).fatal := by
  rcases vector_cases v with (rfl | rfl | rfl | rfl | rfl | rfl) | hv
  case inr => rw [decodeTrap_unrecognised ig hv]
  all_goals rfl

/-- The opcode is the word's top hexadecimal digit. -/
theorem opcodeOf_eq_iff {w : Word} {o : Opcode} : opcodeOf w = o ↔ w.toNat / 4096 = o.bits.toNat := by
  have hlt : w.toNat / 4096 < 16 := Nat.div_lt_of_lt_mul w.isLt
  rw [opcodeOf, ← eq_opcode_bits, ← BitVec.toNat_inj, BitVec.extractLsb'_toNat, Nat.shiftRight_eq_div_pow,
    Nat.mod_eq_of_lt hlt]

/-- The opcode of a fatal word tells its condition. -/
theorem opcodeOf_of_fatal {w : Word} {c : FatalCode} (h : (decode w).fatal = some c) : opcodeOf w = c.opcode :=
  (decode_wf_opcode w).2.symm.trans (opcode_of_fatal h)

theorem decode_fatal_rti {w : Word} : (decode w).fatal = some .rti ↔ opcodeOf w = .rti :=
  ⟨opcodeOf_of_fatal, fun h => by rw [decode_of_opcode_rti h]; rfl⟩

theorem decode_fatal_reserved {w : Word} : (decode w).fatal = some .reserved ↔ opcodeOf w = .reserved :=
  ⟨opcodeOf_of_fatal, fun h => by rw [decode_of_opcode_reserved h]; rfl⟩

theorem decode_fatal_badTrap {w : Word} :
    (decode w).fatal = some .badTrap ↔ opcodeOf w = .trap ∧ ((vectOf w).toNat < 0x20 ∨ 0x25 < (vectOf w).toNat) := by
  refine Iff.trans (and_iff_right_of_imp opcodeOf_of_fatal).symm (and_congr_right fun ho => ?_)
  rw [decode_of_opcode_trap ho, decodeTrap_fatal, Instr.fatal, Option.ite_none_left_eq_some]
  simp only [and_true]
  omega

/-- Settles O45: the step executes the word as its own instruction, whose address is the incremented PC less one. -/
theorem stepRecordsTheFatalInstruction : Obligations.StepRecordsTheFatalInstruction := by
  unfold Obligations.StepRecordsTheFatalInstruction
  refine ⟨?_, fun w => ⟨decode_fatal_rti.trans opcodeOf_eq_iff, decode_fatal_reserved.trans opcodeOf_eq_iff, ?_⟩,
    rfl, rfl, rfl⟩
  · rintro s w c hs ho rfl hc
    rw [step_of_fetching_ordinary hs ho, exec_fatal_records_word hc, encode_decode_of_fatal hc, raiseFatal_eq,
      State.setPc_pc, BitVec.add_sub_cancel]
    rfl
  · rw [← vectOf_toNat]
    exact decode_fatal_badTrap.trans (and_congr_left' opcodeOf_eq_iff)

end Sys2Proof.Machine
end

section
/-! The exit status (O60; R146). -/

namespace Sys2Proof.Machine

variable {s : State}

theorem exitStatus_of_running (h : s.run = .running) : exitStatus s = none := by
  simp only [exitStatus, h]

theorem exitStatus_of_halted (h : s.run = .halted) :
    exitStatus s = some (if s.stop then Config.stopExitStatus else 0) := by
  simp only [exitStatus, h]

theorem exitStatus_of_faulted (h : s.run = .faulted) : exitStatus s = some Config.abortExitStatus := by
  simp only [exitStatus, h]

/-- No step writes the stop latch, taking a request included. -/
theorem step_keeps_stop {t : State} (h : step s = .next t) : t.stop = s.stop := by
  rcases step_effect h with rfl | ⟨-, rfl | ⟨-, rfl⟩ | ⟨q, pc, i, -, he⟩⟩
  · rfl
  · rfl
  · rfl
  · exact he.stop

/-- Settles O60: a run in HALTED was ended by the request exactly if the latch, which no step writes, is set. -/
theorem exitStatusSaysHowTheRunEnded : Obligations.ExitStatusSaysHowTheRunEnded := by
  unfold Obligations.ExitStatusSaysHowTheRunEnded
  refine ⟨fun s t hrun h => ⟨exitStatus_of_running, fun hstop hw => ?_, fun hstop hhalt => ?_, exitStatus_of_faulted⟩,
    fun s hrun hp hq => ?_⟩
  · cases (step_of_stop hrun hstop hw).symm.trans h
    rw [exitStatus_of_halted rfl, State.stopNow_stop, if_pos hstop]
  · rw [exitStatus_of_halted hhalt, step_keeps_stop h, hstop]
    rfl
  · rw [State.requestStop_of_waiting hrun hp hq]
    rfl

end Sys2Proof.Machine
end

section
/-! The boot (O59; spec/70_reset_and_hazards.md R150). -/

namespace Sys2Proof.Machine

variable {images : List (Word × List Word)} {origin : Word} {ws : List Word} {s t : State}

/-- Only an image that fits is loaded. -/
theorem loadImage_eq_some_iff :
    loadImage origin ws s = some t ↔
      origin.toNat + ws.length ≤ 65536 ∧ s.setMem (loadWords origin.toNat ws s.mem) = t :=
  Option.ite_none_right_eq_some.trans (and_congr_right fun _ => Option.some_inj)

/-- A load does not read the PC that start sets. -/
theorem loadImage_start (origin : Word) (ws : List Word) (s : State) :
    loadImage origin ws s.start = (loadImage origin ws s).map State.start := by
  unfold loadImage
  split <;> rfl

theorem loadImages_concat (images : List (Word × List Word)) (origin : Word) (ws : List Word) (s : State) :
    loadImages (images ++ [(origin, ws)]) s = (loadImages images s).bind (loadImage origin ws) := by
  induction images generalizing s with
  | nil =>
    simp only [List.nil_append, loadImages, Option.bind_some]
    cases loadImage origin ws s <;> rfl
  | cons image rest ih =>
    simp only [List.cons_append, loadImages]
    cases loadImage image.1 image.2 s with
    | none => rfl
    | some s' => exact ih s'

/-- The last image might as well be loaded after start. -/
theorem boot_concat (images : List (Word × List Word)) (origin : Word) (ws : List Word) :
    boot (images ++ [(origin, ws)]) = (boot images).bind (loadImage origin ws) := by
  unfold boot
  rw [loadImages_concat]
  cases loadImages images State.created with
  | none => rfl
  | some s => exact (loadImage_start origin ws s).symm

/-- Image by image, boot changes the memory list of the reset state alone and keeps it canonical. -/
theorem boot_frame (h : boot images = some t) : t = { State.reset with mem := t.mem } ∧ Memory.wf t.mem = true := by
  induction images using List.reverseRecOn generalizing t with
  | nil =>
    cases h
    exact ⟨rfl, rfl⟩
  | append_singleton images image ih =>
    rw [boot_concat, Option.bind_eq_some_iff] at h
    obtain ⟨u, hu, hload⟩ := h
    obtain ⟨hfit, rfl⟩ := loadImage_eq_some_iff.mp hload
    obtain ⟨hframe, hm⟩ := ih hu
    refine ⟨?_, loadWords_wf hfit hm⟩
    rw [hframe]
    rfl

/-- The invariant speaks of memory only by its canonical form. -/
theorem State.Inv.withMem (hs : s.Inv) {m : Memory} (hm : Memory.wf m = true) : State.Inv { s with mem := m } :=
  ⟨hm, hs.fault, hs.running, hs.atKbdr⟩

/-- Settles O59: the last image is loaded over the boot of the images before it, whose memory is canonical. -/
theorem bootLeavesTheResetState : Obligations.BootLeavesTheResetState := by
  unfold Obligations.BootLeavesTheResetState
  refine ⟨fun images t h => ?_, rfl, fun images origin ws t h => ?_⟩
  · obtain ⟨hframe, hm⟩ := boot_frame h
    refine ⟨hframe, ?_⟩
    rw [hframe]
    exact resetMeetsTheInvariant.withMem hm
  · rw [boot_concat, Option.bind_eq_some_iff] at h
    obtain ⟨u, hu, hload⟩ := h
    have hfit := (loadImage_eq_some_iff.mp hload).1
    obtain ⟨t', hload', -, -, hinside, houtside⟩ :=
      loadImagePlacesTheWords.1 origin ws u (boot_frame hu).2 hfit
    cases hload'.symm.trans hload
    exact ⟨hinside, u, hu, houtside⟩

end Sys2Proof.Machine
end
